-- ==== Sys2Proof/Word.lean ====
section
/-! DEFINITION. The word types of the MICS core (spec/00_scope.md R6, R16, R18): a stream word, a ring sample and a
host register are 32 bits wide, a legacy value 16, a byte of the input 8. Bit 0 is the least significant. -/

namespace Sys2Proof

/-- A 32-bit word: stream word, ring sample, host register (R6). -/
abbrev Word := BitVec 32

/-- A 16-bit value of the legacy mode (R16: `LEGACY_VALUE_BITS = 16`). -/
abbrev Half := BitVec 16

/-- A byte of the input buffer (R20: `B[j]`). -/
abbrev Byte := BitVec 8

/-- The `MODE` option of `RUN` (10_state.md R33): 0 ROUND_ROBIN, 1 LEGACY. -/
inductive Mode where
  | roundRobin
  | legacy
deriving DecidableEq, Repr

end Sys2Proof
end

