-- ==== Sys2Proof/Machine/Parameters.lean ====
section
/-! DEFINITION. The parameters of the block that the spec gives a value (spec/00_scope.md R9 to R14), each under its own
name, so that a corrected literal changes one definition (93_implementation_defined.md U12). `NCH = 16` and `DEPTH = 33`
(R7, R8) are the sizes in the types of the state. -/

namespace Sys2Proof.Config

/-- `FILLER`, the one reserved word value (R9). -/
def filler : Word := 0xEEEEEEEE#32

/-- `FILLER_ADVANCE`: a filler pair costs four words, not two (R10; to be kept as observed). -/
def fillerAdvance : Nat := 4

/-- `SYNC_ADVANCE`: the cursor moves past the triple (R67). -/
def syncAdvance : Nat := 3

/-- `SYNC_PATTERN`: the sync fields of the three words of a triple (R12). -/
def syncPattern : BitVec 3 × BitVec 3 × BitVec 3 := (0#3, 1#3, 0#3)

/-- `MAX_BYTES`, 32 MiB; a length equal to it is accepted (R13). -/
def maxBytes : Nat := 33554432

/-- `MAX_WORDS`, 8 Mi words (R13). -/
def maxWords : Nat := 8388608

/-- `SENTINEL`, the word `LOAD` puts at index `N` (R14). -/
def sentinel : Word := 0#32

end Sys2Proof.Config
end

