-- ==== Sys2Proof/Machine/Operands.lean ====
section
/-! DEFINITION. Every operand the block extracts (spec/30_encoding.md R55), the fields of a `CMD` value (10_state.md
R33), the byte order of a word (20_memory.md R42) and the numbers of the host registers (10_state.md R32). All fields
are unsigned; none is sign-extended. -/

namespace Sys2Proof.Machine

/-- `SF(w) = w[26:24]`, the sync field (R11, R55). -/
def syncField (w : Word) : BitVec 3 := w.extractLsb' 24 3

/-- Three consecutive words are a sync triple when their sync fields are 0, 1, 0 (R12, R67). -/
def isSyncTriple (w0 w1 w2 : Word) : Bool :=
  syncField w0 == Config.syncPattern.1 && syncField w1 == Config.syncPattern.2.1 && syncField w2 == Config.syncPattern.2.2

/-- Two consecutive words are a filler pair when both equal `FILLER` in all 32 bits (R76, R77). -/
def isFillerPair (w0 w1 : Word) : Bool :=
  w0 == Config.filler && w1 == Config.filler

/-- The word of a record: byte `b0` is bits 7:0 and `b3` is bits 31:24 (R17, R42: `BYTE_ORDER = little`). -/
def wordOfBytes (b0 b1 b2 b3 : Byte) : Word := b3 ++ b2 ++ b1 ++ b0

/-- Byte `j` of a word under `BYTE_ORDER = little` (R52). -/
def byteOfWord (w : Word) (j : Nat) : Byte := w.extractLsb' (8 * j) 8

/-- The four bytes of a word, lowest address first (R42). -/
def bytesOfWord (w : Word) : List Byte :=
  [byteOfWord w 0, byteOfWord w 1, byteOfWord w 2, byteOfWord w 3]

/-- `b3[7:4]` of a record, not examined by the block (R54). -/
def recordHi (w : Word) : BitVec 4 := w.extractLsb' 28 4

/-- `TAG = b3 & 0xF`, the channel of a record (R54, R95). -/
def recordTag (w : Word) : BitVec 4 := w.extractLsb' 24 4

/-- `b2` of a record (R54). -/
def recordB2 (w : Word) : Byte := w.extractLsb' 16 8

/-- `V0 = (b1 << 8) | b0` of a record, zero-extended to 16 bits (R54, R96). -/
def recordV0 (w : Word) : Half := w.extractLsb' 0 16

/-- The channel a tag names (R95): a value in 0..15. -/
def channelOfTag (tag : BitVec 4) : Fin 16 := tag.toFin

/-- `OP`, bits 3:0 of a `CMD` value (R33). -/
def commandOpField (v : Word) : BitVec 4 := v.extractLsb' 0 4

/-- The option bits 5:4 of a `CMD` value (R33). -/
def commandOptions (v : Word) : BitVec 2 := v.extractLsb' 4 2

/-- Bits 31:6 of a `CMD` value, which must be written 0 (R33). -/
def commandReservedField (v : Word) : BitVec 26 := v.extractLsb' 6 26

/-- `DO_INITIAL_SYNC`, bit 4 (R33). -/
def commandSync (v : Word) : Bool := v.getLsbD 4

/-- `MODE`, bit 5: 0 ROUND_ROBIN, 1 LEGACY (R33). -/
def commandMode (v : Word) : Mode := if v.getLsbD 5 then .legacy else .roundRobin

/-- What a `CMD` value asks for (R33, R106). -/
inductive CommandOp where
  | nop | load | findSync | run | ringInit | reset | reserved
deriving DecidableEq, Repr

/-- The command of a `CMD` value: bits 31:6 must be 0, then `OP` decides; 5 to 14 are reserved (R33, R106). -/
def commandOp (v : Word) : CommandOp :=
  if commandReservedField v ≠ 0#26 then .reserved
  else match (commandOpField v).toNat with
    | 0 => .nop
    | 1 => .load
    | 2 => .findSync
    | 3 => .run
    | 4 => .ringInit
    | 15 => .reset
    | _ => .reserved

/-- The registers of the host register file (R32). -/
inductive HostReg where
  | cmd | start | byteLen | nwords | status | pos | syncIndex | ringI | ringCi | frameCount | ringSeq
  | ringData (k : Fin 16)
deriving DecidableEq, Repr

/-- The register a number names, `none` for a number not in the table (R32). -/
def hostReg (n : Nat) : Option HostReg :=
  match n with
  | 0x00 => some .cmd
  | 0x01 => some .start
  | 0x02 => some .byteLen
  | 0x03 => some .nwords
  | 0x04 => some .status
  | 0x05 => some .pos
  | 0x06 => some .syncIndex
  | 0x07 => some .ringI
  | 0x08 => some .ringCi
  | 0x09 => some .frameCount
  | 0x0A => some .ringSeq
  | n => if h : 0x10 ≤ n ∧ n < 0x20 then some (.ringData ⟨n - 0x10, by omega⟩) else none

end Sys2Proof.Machine
end

