-- ==== Sys2Proof/Config.lean ====
section
/-! DEFINITION. What the spec leaves open (spec/93_implementation_defined.md): the open parameters `LEGACY_V1` and
`LEGACY_CAP` and the free value `any32`. All three are opaque: no proof can see a value of theirs. The parameters the
spec gives a value are in Machine/Parameters.lean. -/

namespace Sys2Proof.Config

/-- `any32` (R20): a value the spec does not fix. The argument is a number of the draw; a state counts its draws, so
that two draws need not agree (R91: "may differ from read to read"). Free value, log entry 2. -/
opaque any32 : Nat → Word

/-- `LEGACY_V1` (R97; decision D23): the second 16-bit value of the record `k`, from the loaded bytes and their number.
The last argument is a fresh draw, since the far byte may lie beyond the input and is then `any` (R52, U10).
Open parameter, log entry 3. -/
opaque legacyV1 (bytes : List Host.Cell) (len k draw : Nat) : Half

/-- `LEGACY_CAP` (R99; decision D24): how many values a legacy channel buffer holds. Open parameter, log entry 4. -/
opaque legacyCap : Nat

end Sys2Proof.Config
end

