-- ==== Sys2Proof/Machine/State.lean ====
section
/-! DEFINITION. The state of the MICS core (spec/10_state.md), the reasons a step can stop, and the state after reset
(R40). All of it is plain data. -/

namespace Sys2Proof.Machine

/-- `phase`: which decoder is active (R26). There is no eighth value, so `STATUS.PHASE` never reads 7 (U15). -/
inductive Phase where
  | idle | scan | warmup | main | legacy | done | fault
deriving DecidableEq, Repr

/-- `after_scan`: where phase SCAN leads (R37). -/
inductive AfterScan where
  | warmup | done
deriving DecidableEq, Repr

/-- The conditions of the error taxonomy (R113). -/
inductive Condition where
  | none | fileNotFound | invalidLength | fileTooLarge | syncNotFound | truncatedFrame | channelOverflow
deriving DecidableEq, Repr

/-- The 16 sample cells of one slot; `none` is a cell nothing has written, the spec's own `unwritten` (R27). -/
abbrev Frame := Vector (Option Word) 16

/-- The events of the output trace (R38). -/
inductive Event where
  /-- `FrameDone(slot, valid, samples)` (R80). -/
  | frameDone (slot : Fin 33) (valid : Bool) (samples : Frame)
  /-- `Sample16(ch, v)` (R98). -/
  | sample16 (ch : Fin 16) (v : Half)
  /-- `Fault(code)` (R119). -/
  | fault (code : BitVec 4)
deriving DecidableEq, Repr

/-- One turn of the schedule: the second agent is the host (R21), and it acts through these alone (R110). The list of
turns still to come is plain data in the state, so every interleaving of host and block is some list. -/
inductive HostTurn where
  /-- the block takes one step (R21). -/
  | block
  /-- the host presents a byte buffer, or changes the one it presented (R52, R60, R51). -/
  | present (bytes : List Byte)
  /-- the host reads register number `n` (R107). -/
  | read (n : Nat)
  /-- the host writes `v` to register number `n` (R108); number 0 is `CMD` (R33). -/
  | write (n : Nat) (v : Word)
  /-- the hardware reset input (R130). -/
  | resetInput
deriving DecidableEq, Repr

/-- A byte-addressed memory: listed bytes in rising order of address. An address that is not listed holds no value
the spec fixes (R40: the stream memory is unspecified after reset). -/
abbrev Memory := List Host.Cell

/-- The canonical form of a memory: addresses strictly rising. -/
abbrev Memory.wf (m : Memory) : Prop := m.Pairwise (fun a b => a.1 < b.1)

/-- The machine. -/
structure State where
  /-- `W[0..N]` as bytes, word `k` at byte addresses `4k..4k+3` (R22, R42, R45). -/
  stream : Memory
  /-- `N`, the number of data words (R22), as `NWORDS` holds it (R32: bits 23:0). -/
  n : BitVec 24
  /-- `stream_valid` (R23). -/
  streamValid : Bool
  /-- `pos`, the stream cursor (R24). -/
  pos : Word
  /-- `phase` (R26). -/
  phase : Phase
  /-- `after_scan` (R37). -/
  afterScan : AfterScan
  /-- `mode`, latched by the last accepted `RUN` (R37). -/
  mode : Mode
  /-- `ring.c[s].sample[k]` (R27). -/
  ring : Vector Frame 33
  /-- `ring.i` (R28). -/
  ringI : Fin 33
  /-- `ring.ci` (R29). -/
  ringCi : Fin 16
  /-- `ring.count` (R30). -/
  ringCount : Fin 34
  /-- `sync_found` (R31). -/
  syncFound : Bool
  /-- `sync_not_found` (R31). -/
  syncNotFound : Bool
  /-- `truncated` (R31). -/
  truncated : Bool
  /-- `cmd_refused` (R31). -/
  cmdRefused : Bool
  /-- `err`, the code of the last fatal condition (R31, R113). -/
  err : BitVec 4
  /-- `sync_index` (R31). -/
  syncIndex : Word
  /-- `START` (R32). -/
  start : Word
  /-- `BYTELEN` (R32). -/
  byteLen : Word
  /-- `RING_SEQ` (R32). -/
  ringSeq : Word
  /-- `chbuf[0..15]`; `chlen[ch]` is the length of the list (R36). -/
  chbuf : Vector (List Half) 16
  /-- the output event trace, oldest first (R38). -/
  trace : List Event
  /-- `B`, the byte buffer the host presents (R52, R60). -/
  hostBuf : List Byte
  /-- The model's own: the turns to come, the host's accesses among them (log entry 5). -/
  inbox : List HostTurn
  /-- The model's own: the value the last RDREG returned to the host (log entry 6). -/
  rdData : Word
  /-- The model's own: how many free values have been drawn (log entry 2). -/
  draws : Nat
  /-- The machine's `LEGACY_CAP`, which no step changes (R36, R99; log entry 4). -/
  legacyCap : Nat
deriving DecidableEq, Repr

/-- Why a step stops with a fault. No state that a run reaches takes one (the statement `InvariantStatesNeverStop`). -/
inductive Fault where
  /-- A stream word at an index above `N` was asked for: raised by the fetch (R46, U8: "a model that meets it should
  fault"). Safe. -/
  | streamIndexAboveN
  /-- A stream word was asked for while `stream_valid = 0`, when the stream memory is not readable: raised by the fetch
  (R40, R41). Safe. -/
  | streamNotValid
  /-- The words fetched are no instruction: raised by the step; the fetch hands the decoder no such words. Safe. -/
  | undecodable
deriving DecidableEq, Repr

/-- Why a step is refused. -/
inductive Refusal where
  /-- The instruction has no meaning in the model: raised by an arm of `exec`; no arm raises it. Safe. -/
  | notModelled (mnemonic : String)
deriving DecidableEq, Repr

/-- The ring of `RESET` and `RING_INIT`: all 528 cells unwritten (R40, R86). -/
def emptyRing : Vector Frame 33 := Vector.replicate 33 (Vector.replicate 16 none)

/-- The channel buffers of `RESET` and of a legacy `RUN`: all empty (R40, R93). -/
def emptyChannels : Vector (List Half) 16 := Vector.replicate 16 []

/-- The machine right after reset (R40, R130). -/
def State.reset : State where
  stream := []
  n := 0#24
  streamValid := false
  pos := 0#32
  phase := .idle
  afterScan := .done
  mode := .roundRobin
  ring := emptyRing
  ringI := 0
  ringCi := 0
  ringCount := 0
  syncFound := false
  syncNotFound := false
  truncated := false
  cmdRefused := false
  err := 0#4
  syncIndex := 0#32
  start := 0#32
  byteLen := 0#32
  ringSeq := 0#32
  chbuf := emptyChannels
  trace := []
  hostBuf := []
  inbox := []
  rdData := 0#32
  draws := 0
  legacyCap := Config.legacyCap

end Sys2Proof.Machine
end

