-- ==== Sys2Proof/Machine/Ops.lean ====
section
/-! DEFINITION. The named operations over the state that the meanings share: the stream memory and its reads, the
cursor, the ring, the trace, the phase changes, the channel buffers, and what raising a condition does. -/

namespace Sys2Proof.Machine

/-! ### Memory -/

/-- The byte listed at an address (R20: `B[j]`); `none` where no byte is listed. -/
def Memory.read : Memory → Nat → Option Byte
  | [], _ => none
  | (k, b) :: rest, a => if k = a then some b else Memory.read rest a

/-- Consecutive bytes from an address on. -/
def Memory.ofBytes : Nat → List Byte → Memory
  | _, [] => []
  | base, b :: bs => (base, b) :: Memory.ofBytes (base + 1) bs

/-- The memory with only the addresses `p` keeps still listed. -/
def Memory.keep (m : Memory) (p : Nat → Bool) : Memory := m.filter fun c => p c.1

/-- `W[0..len-1]` from the host's bytes, and the sentinel after it (R63, R14): byte `j` of the buffer at address `j`,
the four sentinel bytes at `4·len` on. A byte the host did not present is not listed. -/
def Memory.ofStream (bytes : List Byte) (len : Nat) : Memory :=
  Memory.ofBytes 0 (bytes.take (4 * len)) ++ Memory.ofBytes (4 * len) (bytesOfWord Config.sentinel)

/-! ### The stream -/

/-- `N` (R22). -/
def State.len (s : State) : Nat := s.n.toNat

/-- Are all four bytes of word `k` listed? -/
def wordListed (m : Memory) (k : Nat) : Bool :=
  (List.range 4).all fun j => (m.read (4 * k + j)).isSome

/-- Byte `j` of word `k`, or the same byte of `free` where none is listed (R51: "the word a later step reads is
`any32`"). -/
def byteOr (m : Memory) (k : Nat) (free : Word) (j : Nat) : Byte :=
  (m.read (4 * k + j)).getD (byteOfWord free j)

/-- `W[k]`, little-endian (R41, R42), bytes the spec does not fix taken from `free`. -/
def wordAt (m : Memory) (k : Nat) (free : Word) : Word :=
  wordOfBytes (byteOr m k free 0) (byteOr m k free 1) (byteOr m k free 2) (byteOr m k free 3)

/-- One more free value has been drawn. -/
def State.draw (s : State) : State := { s with draws := s.draws + 1 }

/-- A stream read (R41, R46): defined for `0 ≤ k ≤ N` while `stream_valid = 1`. It has no side effect, but a word with
a byte the spec does not fix draws a free value for it. -/
def readWord (k : Nat) (s : State) : Except Fault (Word × State) :=
  if !s.streamValid then .error .streamNotValid
  else if s.len < k then .error .streamIndexAboveN
  else .ok (wordAt s.stream k (Config.any32 s.draws), if wordListed s.stream k then s else s.draw)

/-- `MemRead(k, count)` (R20): consecutive words, in stream order. -/
def readWords : (count k : Nat) → State → Except Fault (List Word × State)
  | 0, _, s => .ok ([], s)
  | count + 1, k, s =>
    match readWord k s with
    | .error r => .error r
    | .ok (w, s1) =>
      match readWords count (k + 1) s1 with
      | .error r => .error r
      | .ok (ws, s2) => .ok (w :: ws, s2)

/-- The bytes `B[0..L-1]` of the loaded stream (R52), sentinel left out. -/
def loadedBytes (s : State) : Memory := s.stream.keep fun a => a < 4 * s.len

/-- Did record `k` of the buffer stay what the loaded stream holds? -/
def recordKept (m : Memory) (bytes : List Byte) (k : Nat) : Bool :=
  (List.range 4).all fun j => m.read (4 * k + j) == bytes[4 * k + j]?

/-- The host presents a buffer (R52, R110). The words of the loaded stream whose record it changed are not fixed from
then on (R51, R139, U9); the sentinel is none of the host's bytes. -/
def presentBuffer (bytes : List Byte) (s : State) : State :=
  { s with
    hostBuf := bytes
    stream := s.stream.keep fun a => s.len ≤ a / 4 || recordKept s.stream bytes (a / 4) }

/-- The cursor moves on by `k` words (R145). -/
def advance (k : Nat) (s : State) : State := { s with pos := s.pos + BitVec.ofNat 32 k }

/-! ### Events -/

/-- `emit E` (R20, R38). -/
def emit (e : Event) (s : State) : State := { s with trace := s.trace ++ [e] }

/-! ### Conditions: what the block does in place of a trap (60_exceptions.md) -/

/-- The code of a condition (R113). -/
def Condition.code : Condition → BitVec 4
  | .none => 0#4
  | .fileNotFound => 1#4
  | .invalidLength => 2#4
  | .fileTooLarge => 3#4
  | .syncNotFound => 4#4
  | .truncatedFrame => 5#4
  | .channelOverflow => 6#4

/-- What every fatal condition does (R119): `err <- c; emit Fault(c)`. -/
def reportFatal (c : Condition) (s : State) : State :=
  emit (.fault c.code) { s with err := c.code }

/-- Nothing of the stream exists any more (R60, R119). -/
def dropStream (s : State) : State :=
  { s with streamValid := false, n := 0#24, stream := [] }

/-- Raise a condition: the block's one form of exception entry (R113, R119, R121). It saves nothing for a handler and
goes to no vector, for there is neither (R119); nothing returns from it (R123). `FileNotFound` is the host's and never
raised by the block (R114), so it, like `None`, changes nothing. -/
def raise (c : Condition) (s : State) : State :=
  match c with
  | .none => s
  | .fileNotFound => s
  | .invalidLength => { dropStream (reportFatal .invalidLength s) with phase := .idle }
  | .fileTooLarge => { dropStream (reportFatal .fileTooLarge s) with phase := .idle }
  | .syncNotFound => { s with syncIndex := s.pos, syncFound := false, syncNotFound := true }
  | .truncatedFrame => { s with truncated := true }
  | .channelOverflow => { reportFatal .channelOverflow s with phase := .fault }

/-! ### The phase -/

/-- Whenever the block is in phase WARMUP, or about to enter it, and the ring is full, the phase is MAIN (R75). -/
def endWarmup (s : State) : State :=
  if s.phase = .warmup ∧ s.ringCount.val = 33 then { s with phase := .main } else s

/-- The phase an `after_scan` names (R37). -/
def AfterScan.phase : AfterScan → Phase
  | .warmup => .warmup
  | .done => .done

/-- `phase <- after_scan` at the end of a scan (R67, R69, R75). -/
def enterAfterScan (s : State) : State := endWarmup { s with phase := s.afterScan.phase }

/-! ### The ring -/

/-- `ring.c[slot].sample[k]` (R20). -/
def ringCell (s : State) (slot : Fin 33) (k : Fin 16) : Option Word := (s.ring[slot])[k]

/-- `ring.c[ring.i].sample[ring.ci] <- w`, the whole word, unchanged (R78, R144). -/
def storeSample (w : Word) (s : State) : State :=
  { s with ring := s.ring.set s.ringI ((s.ring[s.ringI]).set s.ringCi (some w)) }

/-- `min(ring.count + 1, 33)` (R30). -/
def countUp (c : Fin 34) : Fin 34 := if h : c.val < 33 then ⟨c.val + 1, by omega⟩ else 33

/-- A frame is complete (R78, R80): the event, marked valid in phase MAIN only; `ring.ci <- 0`,
`ring.i <- (ring.i + 1) mod 33`, the saturating count; and the end of the warm-up when the ring is full (R75). -/
def completeFrame (s : State) : State :=
  let e := emit (.frameDone s.ringI (s.phase == .main) s.ring[s.ringI]) s
  endWarmup { e with ringCi := 0, ringI := s.ringI + 1, ringCount := countUp s.ringCount }

/-- After a store: the next channel, or the end of the frame after channel 15 (R78). -/
def nextChannel (s : State) : State :=
  if s.ringCi.val = 15 then completeFrame s else { s with ringCi := s.ringCi + 1 }

/-- A fresh ring (R86). -/
def freshRing (s : State) : State :=
  { s with ring := emptyRing, ringI := 0, ringCi := 0, ringCount := 0 }

/-! ### The legacy channel buffers -/

/-- `chlen[ch]` (R36). -/
def chLen (s : State) (ch : Fin 16) : Nat := (s.chbuf[ch]).length

/-- The buffer of `ch` already holds `LEGACY_CAP` values (R99). -/
def channelFull (s : State) (ch : Fin 16) : Bool := chLen s ch == s.legacyCap

/-- `chbuf[ch][chlen[ch]] <- v; chlen[ch] <- chlen[ch] + 1; emit Sample16(ch, v)` (R98). -/
def appendSample (ch : Fin 16) (v : Half) (s : State) : State :=
  emit (.sample16 ch v) { s with chbuf := s.chbuf.set ch (s.chbuf[ch] ++ [v]) }

/-! ### Reset -/

/-- `RESET` and the hardware reset input (R40, R105, R130): every piece of the block's state takes its reset value.
What is the host's, not the block's, stays: its buffer, its turns to come, the value it last read; so do the count of
draws and the machine's `LEGACY_CAP` (log entry 7). -/
def resetBlock (s : State) : State :=
  { State.reset with
    hostBuf := s.hostBuf
    inbox := s.inbox
    rdData := s.rdData
    draws := s.draws
    legacyCap := s.legacyCap }

end Sys2Proof.Machine
end

