-- ==== Sys2Proof/Machine/Flags.lean ====
section
/-! DEFINITION. `STATUS` and what it is made of (spec/10_state.md R26, R31, R34), the two level outputs
(45_host_commands.md R109), when a command is accepted (R102) and what a refused one does (R103). -/

namespace Sys2Proof.Machine

/-- The code `STATUS.PHASE` shows (R26). -/
def Phase.code : Phase → BitVec 3
  | .idle => 0#3
  | .scan => 1#3
  | .warmup => 2#3
  | .main => 3#3
  | .legacy => 4#3
  | .done => 5#3
  | .fault => 6#3

/-- The block is busy in phases SCAN, WARMUP, MAIN and LEGACY (R26). -/
def Phase.busy : Phase → Bool
  | .scan | .warmup | .main | .legacy => true
  | .idle | .done | .fault => false

/-- Is the block busy (R26)? -/
def State.isBusy (s : State) : Bool := s.phase.busy

/-- `STATUS.WARM` is not stored: it reads `ring.count = 33` (R31). -/
def State.warm (s : State) : Bool := s.ringCount.val == 33

/-- The level output `busy` (R109). -/
def State.busyOutput (s : State) : Bool := s.isBusy

/-- The level output `done` (R109). -/
def State.doneOutput (s : State) : Bool := s.phase == .done

/-- `STATUS` (R34), its bits from 31 down: reserved 31:16; `ERR` 15:12; reserved 11; `DONE` 10; `BUSY` 9;
`CMD_REFUSED` 8; `WARM` 7; `TRUNCATED` 6; `SYNC_NOT_FOUND` 5; `SYNC_FOUND` 4; `STREAM_VALID` 3; `PHASE` 2:0. -/
def statusWord (s : State) : Word :=
  0#16 ++ s.err ++ 0#1 ++ BitVec.ofBool s.doneOutput ++ BitVec.ofBool s.busyOutput ++ BitVec.ofBool s.cmdRefused
    ++ BitVec.ofBool s.warm ++ BitVec.ofBool s.truncated ++ BitVec.ofBool s.syncNotFound
    ++ BitVec.ofBool s.syncFound ++ BitVec.ofBool s.streamValid ++ s.phase.code

/-- The phases in which every command is accepted that needs no more than its own conditions: IDLE and DONE (R102). -/
def Phase.acceptsCommands : Phase → Bool
  | .idle | .done => true
  | .scan | .warmup | .main | .legacy | .fault => false

/-- A refused command changes exactly one thing (R103). -/
def refuse (s : State) : State := { s with cmdRefused := true }

/-- An accepted command first clears `cmd_refused`, then has its own effect (R102). -/
def accept (effect : State → State) (s : State) : State := effect { s with cmdRefused := false }

/-- `LOAD` and `RING_INIT`: accepted in IDLE and DONE, else refused (R102). -/
def whenIdle (effect : State → State) (s : State) : State :=
  if s.phase.acceptsCommands then accept effect s else refuse s

/-- `FIND_SYNC` and `RUN`: they need `stream_valid = 1` besides (R102). -/
def whenIdleAndLoaded (effect : State → State) (s : State) : State :=
  if s.phase.acceptsCommands && s.streamValid then accept effect s else refuse s

end Sys2Proof.Machine
end

