-- ==== Sys2Proof/Machine/Commands.lean ====
section
/-! DEFINITION. The host commands (spec/45_host_commands.md, 40_wordstream_load.md, 41_find_sync.md,
42_demux_round_robin.md, 43_ring_buffer.md, 44_legacy_tag_mode.md). A command is one atomic host step (R102). -/

namespace Sys2Proof.Machine

/-- NOP (R104): accepted in every phase; it clears `cmd_refused`. -/
def execNop (s : State) : Host.Outcome State Fault Refusal :=
  .next (accept id s)

/-- The stream an accepted load with a good length builds (R63): `N = L / 4` words and the sentinel. -/
def buildStream (s : State) : State :=
  let len := s.byteLen.toNat / 4
  { s with
    stream := Memory.ofStream s.hostBuf len
    n := BitVec.ofNat 24 len
    streamValid := true
    err := 0#4 }

/-- The two checks of `LOAD`, alignment first (R61, R62, R122), then the stream. -/
def checkedLoad (s : State) : State :=
  if s.byteLen.toNat % 4 ≠ 0 then raise .invalidLength s
  else if Config.maxBytes < s.byteLen.toNat then raise .fileTooLarge s
  else buildStream s

/-- LOAD (R60): whatever the outcome of the checks, phase IDLE, cursor 0 and no scan result. -/
def loadEffect (s : State) : State :=
  { checkedLoad s with phase := .idle, pos := 0#32, syncFound := false, syncNotFound := false }

/-- LOAD (R60 to R63). -/
def execLoad (s : State) : Host.Outcome State Fault Refusal :=
  .next (whenIdle loadEffect s)

/-- FIND_SYNC, accepted (R65). -/
def findSyncEffect (s : State) : State :=
  { s with
    pos := s.start
    syncFound := false
    syncNotFound := false
    afterScan := .done
    phase := .scan }

/-- FIND_SYNC (R65). -/
def execFindSync (s : State) : Host.Outcome State Fault Refusal :=
  .next (whenIdleAndLoaded findSyncEffect s)

/-- What every accepted `RUN` does first (R72, R93). -/
def startPass (mode : Mode) (s : State) : State :=
  { s with mode := mode, pos := s.start, syncFound := false, syncNotFound := false, truncated := false }

/-- RUN, accepted: round-robin with or without the initial sync (R72), or legacy, which ignores the option (R93). -/
def runEffect (mode : Mode) (sync : Bool) (s : State) : State :=
  match mode, sync with
  | .roundRobin, true => { startPass .roundRobin s with afterScan := .warmup, phase := .scan }
  | .roundRobin, false => { startPass .roundRobin s with phase := .main }
  | .legacy, _ => { startPass .legacy s with chbuf := emptyChannels, phase := .legacy }

/-- RUN (R72, R93). -/
def execRun (mode : Mode) (sync : Bool) (s : State) : Host.Outcome State Fault Refusal :=
  .next (whenIdleAndLoaded (runEffect mode sync) s)

/-- RING_INIT, accepted (R86). -/
def ringInitEffect (s : State) : State :=
  { freshRing s with truncated := false, trace := [], phase := .idle }

/-- RING_INIT (R86). -/
def execRingInit (s : State) : Host.Outcome State Fault Refusal :=
  .next (whenIdle ringInitEffect s)

/-- RESET (R105): accepted in every phase. -/
def execReset (s : State) : Host.Outcome State Fault Refusal :=
  .next (accept resetBlock s)

/-- CMD_RESERVED (R106): refused in every phase. -/
def execCmdReserved (s : State) : Host.Outcome State Fault Refusal :=
  .next (refuse s)

end Sys2Proof.Machine
end

