-- ==== Sys2Proof/Machine/Demux.lean ====
section
/-! DEFINITION. The stream instructions of phases WARMUP and MAIN (spec/42_demux_round_robin.md). -/

namespace Sys2Proof.Machine

/-- STREAMEND (R79): `TruncatedFrame` is reported if a frame is unfinished; everything else stays, the pass is over. -/
def execStreamEnd (s : State) : Host.Outcome State Fault Refusal :=
  let reported := if s.ringCi.val = 0 then { s with truncated := false } else raise .truncatedFrame s
  .next { reported with phase := .done }

/-- FILLPAIR (R77): four words are consumed, nothing is stored. -/
def execFillPair (s : State) : Host.Outcome State Fault Refusal :=
  .next (advance Config.fillerAdvance s)

/-- DATA (R78): the word goes to the ring cell at the cursors, the cursors move on. -/
def execData (w : Word) (s : State) : Host.Outcome State Fault Refusal :=
  .next (advance 1 (nextChannel (storeSample w s)))

end Sys2Proof.Machine
end

