-- ==== Sys2Proof/Machine/Legacy.lean ====
section
/-! DEFINITION. The stream instructions of phase LEGACY (spec/44_legacy_tag_mode.md). -/

namespace Sys2Proof.Machine

/-- LEND (R100): the legacy pass is over; `truncated` stays. -/
def execLEnd (s : State) : Host.Outcome State Fault Refusal :=
  .next { s with phase := .done }

/-- The second value of the record at the cursor, `LEGACY_V1(B, L, pos)` (R97). -/
def secondValue (s : State) : Half :=
  Config.legacyV1 (loadedBytes s) (4 * s.len) s.pos.toNat s.draws

/-- LREC (R95 to R99): the two values go to the channel of the tag, each after the capacity check; an append to a full
buffer raises `ChannelOverflow`, keeps what was appended and leaves the cursor. -/
def execLRec (tag : BitVec 4) (v0 : Half) (s : State) : Host.Outcome State Fault Refusal :=
  let ch := channelOfTag tag
  let v1 := secondValue s
  let s0 := s.draw
  if channelFull s0 ch then .next (raise .channelOverflow s0)
  else
    let s1 := appendSample ch v0 s0
    if channelFull s1 ch then .next (raise .channelOverflow s1)
    else .next (advance 1 (appendSample ch v1 s1))

end Sys2Proof.Machine
end

