-- ==== Sys2Proof/Machine/Registers.lean ====
section
/-! DEFINITION. The host's register accesses (spec/10_state.md R32 to R35, 45_host_commands.md R107, R108,
43_ring_buffer.md R89, R91). -/

namespace Sys2Proof.Machine

/-- A value the host may rely on only while the block is not busy (R107, R138); `none` is `any32`. -/
def settled (s : State) (v : Word) : Option Word := if s.isBusy then none else some v

/-- The slot the read window shows: `RING_SEQ mod 33`, of the full 32-bit value (R89, R143). -/
def windowSlot (s : State) : Fin 33 := ⟨s.ringSeq.toNat % 33, Nat.mod_lt _ (by decide)⟩

/-- What a register reads (R32, R34, R107); `none` is `any32`: a result register or a ring cell while the block is busy
(R138), a ring cell nothing has written (R91). -/
def registerValue (s : State) : HostReg → Option Word
  | .cmd => some 0#32
  | .start => some s.start
  | .byteLen => some s.byteLen
  | .nwords => some (s.n.setWidth 32)
  | .status => some (statusWord s)
  | .pos => settled s s.pos
  | .syncIndex => settled s s.syncIndex
  | .ringI => settled s (BitVec.ofNat 32 s.ringI)
  | .ringCi => settled s (BitVec.ofNat 32 s.ringCi)
  | .frameCount => settled s (BitVec.ofNat 32 s.ringCount)
  | .ringSeq => some s.ringSeq
  | .ringData k => (ringCell s (windowSlot s) k).bind (settled s)

/-- What a read of register number `n` returns; a number not in the table reads 0 (R32, R107). -/
def readNumber (s : State) (n : Nat) : Option Word :=
  match hostReg n with
  | none => some 0#32
  | some r => registerValue s r

/-- RDREG (R107): the value goes to the host, nothing of the block changes; `any32` is a fresh draw. -/
def execRdreg (n : Nat) (s : State) : Host.Outcome State Fault Refusal :=
  match readNumber s n with
  | some v => .next { s with rdData := v }
  | none => .next { s.draw with rdData := Config.any32 s.draws }

/-- A write to `CMD` performs the command of the value (R33, R102, R108). -/
def performCommand (v : Word) (s : State) : Host.Outcome State Fault Refusal :=
  match commandOp v with
  | .nop => execNop s
  | .load => execLoad s
  | .findSync => execFindSync s
  | .run => execRun (commandMode v) (commandSync v) s
  | .ringInit => execRingInit s
  | .reset => execReset s
  | .reserved => execCmdReserved s

/-- A write of `v` to register `r` (R32, R108): the three data registers store it, `CMD` performs it, a read-only
register ignores it. -/
def writeRegister (r : HostReg) (v : Word) (s : State) : Host.Outcome State Fault Refusal :=
  match r with
  | .start => .next { s with start := v }
  | .byteLen => .next { s with byteLen := v }
  | .ringSeq => .next { s with ringSeq := v }
  | .cmd => performCommand v s
  | .nwords | .status | .pos | .syncIndex | .ringI | .ringCi | .frameCount | .ringData _ => .next s

/-- WRREG (R108): a number not in the table ignores the write without any flag. -/
def execWrreg (n : Nat) (v : Word) (s : State) : Host.Outcome State Fault Refusal :=
  match hostReg n with
  | none => .next s
  | some r => writeRegister r v s

end Sys2Proof.Machine
end

