-- ==== Sys2Proof/Machine/Scan.lean ====
section
/-! DEFINITION. The stream instructions of phase SCAN (spec/41_find_sync.md). -/

namespace Sys2Proof.Machine

/-- SCANEND (R69): `SyncNotFound` is reported, the cursor stays, the phase is `after_scan`. -/
def execScanEnd (s : State) : Host.Outcome State Fault Refusal :=
  .next (enterAfterScan (raise .syncNotFound s))

/-- SYNC3 (R67): the result is the index of the triple's first word, the cursor moves past the triple. -/
def execSync3 (s : State) : Host.Outcome State Fault Refusal :=
  let found := { s with syncIndex := s.pos, syncFound := true, syncNotFound := false }
  .next (enterAfterScan (advance Config.syncAdvance found))

/-- SCANSKIP (R68): the very next word, whatever the reason the test failed. -/
def execScanSkip (s : State) : Host.Outcome State Fault Refusal :=
  .next (advance 1 s)

end Sys2Proof.Machine
end

