-- ==== Sys2Proof/Syntax.lean ====
section
/-! DEFINITION. The instructions of the MICS core: one constructor per row of spec/opcode_table.json. The first eight
are the stream instructions, patterns decoded at the cursor (spec/30_encoding.md R56); the next seven are the host
commands, values written to `CMD` (R58); the last two are the host's register accesses (45_host_commands.md R107,
R108). An instruction carries everything its encoding holds, examined or not, so that encoding it again loses no bit. -/

namespace Sys2Proof

inductive Instr where
  /-- SCANEND: the scan limit is reached; no word is tested (R69). -/
  | scanEnd
  /-- SYNC3: the three words of a sync triple (R67). -/
  | sync3 (w0 w1 w2 : Word)
  /-- SCANSKIP: a word that begins no triple, with the two words tested beside it (R68). -/
  | scanSkip (w0 w1 w2 : Word)
  /-- STREAMEND: the end of a round-robin pass; no word is tested (R79). -/
  | streamEnd
  /-- FILLPAIR: two words, both `FILLER` (R77). -/
  | fillPair
  /-- DATA: the sample, and the lookahead word the filler test read beside it (R78). -/
  | data (w next : Word)
  /-- LEND: the end of a legacy pass (R100). -/
  | lEnd
  /-- LREC: a 4-byte record; `hi` is `b3[7:4]` (not examined), `tag` is `b3[3:0]`, `b2` one byte of the second value,
  `v0` the first value (R54, R95 to R98). -/
  | lRec (hi tag : BitVec 4) (b2 : Byte) (v0 : Half)
  /-- NOP, with the two option bits 5:4 it ignores (R104). -/
  | nop (x : BitVec 2)
  /-- LOAD, with the two option bits it ignores (R60). -/
  | load (x : BitVec 2)
  /-- FIND_SYNC, with the two option bits it ignores (R65). -/
  | findSync (x : BitVec 2)
  /-- RUN: `MODE` in bit 5, `DO_INITIAL_SYNC` in bit 4 (R72, R93). -/
  | run (mode : Mode) (sync : Bool)
  /-- RING_INIT, with the two option bits it ignores (R86). -/
  | ringInit (x : BitVec 2)
  /-- RESET, with the two option bits it ignores (R105). -/
  | reset (x : BitVec 2)
  /-- CMD_RESERVED: a `CMD` value that no command has (R106). -/
  | cmdReserved (v : Word)
  /-- RDREG: a host read of register number `n` (R107). -/
  | rdreg (n : Nat)
  /-- WRREG: a host write of `v` to register number `n` (R108). -/
  | wrreg (n : Nat) (v : Word)
deriving DecidableEq, Repr

end Sys2Proof
end

