-- ==== Sys2Proof/Machine/Dispatch.lean ====
section
/-! DEFINITION. The meaning of every instruction: one arm per constructor, each one call of its meaning. -/

namespace Sys2Proof.Machine

def exec (i : Instr) (s : State) : Host.Outcome State Fault Refusal :=
  match i with
  | .scanEnd => Sys2Proof.Machine.execScanEnd s
  | .sync3 _ _ _ => Sys2Proof.Machine.execSync3 s
  | .scanSkip _ _ _ => Sys2Proof.Machine.execScanSkip s
  | .streamEnd => Sys2Proof.Machine.execStreamEnd s
  | .fillPair => Sys2Proof.Machine.execFillPair s
  | .data w _ => Sys2Proof.Machine.execData w s
  | .lEnd => Sys2Proof.Machine.execLEnd s
  | .lRec _ tag _ v0 => Sys2Proof.Machine.execLRec tag v0 s
  | .nop _ => Sys2Proof.Machine.execNop s
  | .load _ => Sys2Proof.Machine.execLoad s
  | .findSync _ => Sys2Proof.Machine.execFindSync s
  | .run mode sync => Sys2Proof.Machine.execRun mode sync s
  | .ringInit _ => Sys2Proof.Machine.execRingInit s
  | .reset _ => Sys2Proof.Machine.execReset s
  | .cmdReserved _ => Sys2Proof.Machine.execCmdReserved s
  | .rdreg n => Sys2Proof.Machine.execRdreg n s
  | .wrreg n v => Sys2Proof.Machine.execWrreg n v s

end Sys2Proof.Machine
end

