-- ==== Sys2Proof/WellFormed.lean ====
section
/-! DEFINITION. Which terms of `Instr` stand for an instruction of the block: the condition column of the decode
table (spec/30_encoding.md R56) and of the command table (R58, 45_host_commands.md R106, R108). -/

namespace Sys2Proof

open Sys2Proof.Machine

/-- `i.wf`: some words, in some phase, decode to `i`. -/
def Instr.wf : Instr → Bool
  | .scanEnd => true
  | .sync3 w0 w1 w2 => isSyncTriple w0 w1 w2
  | .scanSkip w0 w1 w2 => !isSyncTriple w0 w1 w2
  | .streamEnd => true
  | .fillPair => true
  | .data w next => !isFillerPair w next
  | .lEnd => true
  | .lRec _ _ _ _ => true
  | .nop _ => true
  | .load _ => true
  | .findSync _ => true
  | .run _ _ => true
  | .ringInit _ => true
  | .reset _ => true
  | .cmdReserved v => commandOp v == .reserved
  | .rdreg _ => true
  | .wrreg n _ => n != 0

end Sys2Proof
end

