-- ==== Sys2Proof/Decode.lean ====
section
/-! DEFINITION. Decode and encode. Decode is by phase and by pattern, in the priority order of the table of
spec/30_encoding.md R56, and by register number for the host's accesses (R58). What is decoded is an `Encoding`: the
place the words come from and the words themselves, in stream order. -/

namespace Sys2Proof

open Sys2Proof.Machine

/-- Where an instruction's words come from. The three stream decoders are those of phase SCAN, of phases WARMUP and
MAIN, and of phase LEGACY (R56); the other two are the host's accesses to a register number (R58). -/
inductive Port where
  | scan
  | demux
  | legacy
  | read (n : Nat)
  | write (n : Nat)
deriving DecidableEq, Repr

/-- The words an instruction is decoded from. A stream decoder is given no word when the cursor has reached its bound
(format W0 of R56), else every word the table says the phase tests. -/
structure Encoding where
  port : Port
  words : List Word
deriving DecidableEq, Repr

/-- Why a list of words is no instruction: only its length can be wrong, since every word is legal (R57). -/
inductive DecodeError where
  /-- phase SCAN tests 0 or 3 words. -/
  | scanLength
  /-- phases WARMUP and MAIN test 0 or 2 words. -/
  | demuxLength
  /-- phase LEGACY takes 0 or 1 record. -/
  | legacyLength
  /-- a host read carries no word. -/
  | readLength
  /-- a host write carries one word. -/
  | writeLength
deriving DecidableEq, Repr

/-- The host command of a value written to `CMD` (R58, R106): total, the reserved values being CMD_RESERVED. -/
def decodeCommand (v : Word) : Instr :=
  match commandOp v with
  | .nop => .nop (commandOptions v)
  | .load => .load (commandOptions v)
  | .findSync => .findSync (commandOptions v)
  | .run => .run (commandMode v) (commandSync v)
  | .ringInit => .ringInit (commandOptions v)
  | .reset => .reset (commandOptions v)
  | .reserved => .cmdReserved v

/-- Phase SCAN below the limit: SYNC3 before SCANSKIP (R56). -/
def decodeScan (w0 w1 w2 : Word) : Instr :=
  if isSyncTriple w0 w1 w2 then .sync3 w0 w1 w2 else .scanSkip w0 w1 w2

/-- Phases WARMUP and MAIN below `N`: FILLPAIR before DATA (R56, R76). -/
def decodeDemux (w0 w1 : Word) : Instr :=
  if isFillerPair w0 w1 then .fillPair else .data w0 w1

/-- Phase LEGACY below `N`: every record is an LREC (R56). -/
def decodeRecord (w : Word) : Instr :=
  .lRec (recordHi w) (recordTag w) (recordB2 w) (recordV0 w)

/-- A host write: to `CMD` a command, to any other number a WRREG (R58, R108). -/
def decodeWrite (n : Nat) (v : Word) : Instr :=
  if n = 0 then decodeCommand v else .wrreg n v

/-- The decode table (R56, R58), total, rejecting by name. -/
def decode (e : Encoding) : Except DecodeError Instr :=
  match e.port, e.words with
  | .scan, [] => .ok .scanEnd
  | .scan, [w0, w1, w2] => .ok (decodeScan w0 w1 w2)
  | .scan, _ => .error .scanLength
  | .demux, [] => .ok .streamEnd
  | .demux, [w0, w1] => .ok (decodeDemux w0 w1)
  | .demux, _ => .error .demuxLength
  | .legacy, [] => .ok .lEnd
  | .legacy, [w] => .ok (decodeRecord w)
  | .legacy, _ => .error .legacyLength
  | .read n, [] => .ok (.rdreg n)
  | .read _, _ => .error .readLength
  | .write n, [v] => .ok (decodeWrite n v)
  | .write _, _ => .error .writeLength

/-- The `CMD` value with `OP = op` and the option bits `x` (R33, R58). -/
def commandWord (x : BitVec 2) (op : BitVec 4) : Word := 0#26 ++ x ++ op

/-- The option bits of `RUN`: `MODE` in the upper one, `DO_INITIAL_SYNC` in the lower (R33). -/
def runOptions (mode : Mode) (sync : Bool) : BitVec 2 :=
  BitVec.ofBool (mode == .legacy) ++ BitVec.ofBool sync

/-- The word of a record under `BYTE_ORDER = little` (R54). -/
def recordWord (hi tag : BitVec 4) (b2 : Byte) (v0 : Half) : Word := hi ++ tag ++ b2 ++ v0

/-- The encoding of an instruction, from the same tables (R56, R58). -/
def encode : Instr → Encoding
  | .scanEnd => ⟨.scan, []⟩
  | .sync3 w0 w1 w2 => ⟨.scan, [w0, w1, w2]⟩
  | .scanSkip w0 w1 w2 => ⟨.scan, [w0, w1, w2]⟩
  | .streamEnd => ⟨.demux, []⟩
  | .fillPair => ⟨.demux, [Config.filler, Config.filler]⟩
  | .data w next => ⟨.demux, [w, next]⟩
  | .lEnd => ⟨.legacy, []⟩
  | .lRec hi tag b2 v0 => ⟨.legacy, [recordWord hi tag b2 v0]⟩
  | .nop x => ⟨.write 0, [commandWord x 0#4]⟩
  | .load x => ⟨.write 0, [commandWord x 1#4]⟩
  | .findSync x => ⟨.write 0, [commandWord x 2#4]⟩
  | .run mode sync => ⟨.write 0, [commandWord (runOptions mode sync) 3#4]⟩
  | .ringInit x => ⟨.write 0, [commandWord x 4#4]⟩
  | .reset x => ⟨.write 0, [commandWord x 15#4]⟩
  | .cmdReserved v => ⟨.write 0, [v]⟩
  | .rdreg n => ⟨.read n, []⟩
  | .wrreg n v => ⟨.write n, [v]⟩

/-- The stream words of `w` under spec/opcode_table.json's numbering of bits: the first word is bits 31:0. -/
def tableWords (count w : Nat) : List Word :=
  (List.range count).map fun j => BitVec.ofNat 32 (w >>> (32 * j))

/-- How a row of spec/opcode_table.json of `nbits` bits is read. A row of 96 bits is the window of phase SCAN (format
W3), one of 64 bits the window of phases WARMUP and MAIN (W2), one of 32 bits a value written to `CMD`. Of the rows
without an encoding those of format `W0` name two bits and are read from one byte (SCANEND), those of format `REG` name
none (RDREG of number `w`). Log entry 11 says which rows share their bits with another row. -/
def tableEncoding (nbits w : Nat) : Option Encoding :=
  if nbits = 96 then some ⟨.scan, tableWords 3 w⟩
  else if nbits = 64 then some ⟨.demux, tableWords 2 w⟩
  else if nbits = 32 then some ⟨.write 0, tableWords 1 w⟩
  else if nbits = 0 then some ⟨.read w, []⟩
  else if nbits ≤ 8 then some ⟨.scan, []⟩
  else none

/-- The instruction the decoder reads from a word numbered as the opcode table numbers it. -/
def decodeTableWord (nbits w : Nat) : Option Instr :=
  match tableEncoding nbits w with
  | none => none
  | some e => (decode e).toOption

end Sys2Proof
end

