-- ==== Sys2Proof/Machine/Fetch.lean ====
section
/-! DEFINITION. What the machine does next: whose turn it is (spec/00_scope.md R21), and the words the turn's
instruction is decoded from (30_encoding.md R56, 20_memory.md R46). -/

namespace Sys2Proof.Machine

/-- What the next turn brings. -/
inductive Fetched where
  /-- no instruction: the turn ends in this state. -/
  | quiet (s : State)
  /-- an instruction's words, and the state it runs in. -/
  | words (e : Encoding) (s : State)
  /-- the stream read stopped. -/
  | stopped (r : Fault)

/-- The window of a stream decoder: no word at or past the bound (R56's format W0), else `count` words from the
cursor on. -/
def fetchWindow (port : Port) (bound count : Nat) (s : State) : Fetched :=
  if bound ≤ s.pos.toNat then .words ⟨port, []⟩ s
  else match readWords count s.pos.toNat s with
    | .error r => .stopped r
    | .ok (ws, s1) => .words ⟨port, ws⟩ s1

/-- The block's turn (R21, R26): a busy block fetches at the cursor by its phase; one that is not busy does nothing
until the next command (R129). The scan's bound is `N ∸ 1` and it tests three words (R66); the demultiplexer's is `N`
and it tests two (R76); the legacy mode's is `N` and it takes one record (R94). -/
def fetchStream (s : State) : Fetched :=
  match s.phase with
  | .scan => fetchWindow .scan (s.len - 1) 3 s
  | .warmup => fetchWindow .demux s.len 2 s
  | .main => fetchWindow .demux s.len 2 s
  | .legacy => fetchWindow .legacy s.len 1 s
  | .idle => .quiet s
  | .done => .quiet s
  | .fault => .quiet s

/-- The next turn of the schedule; with no turn listed it is the block's. -/
def fetchNext (s : State) : Fetched :=
  match s.inbox with
  | [] => fetchStream s
  | .block :: rest => fetchStream { s with inbox := rest }
  | .present bytes :: rest => .quiet (presentBuffer bytes { s with inbox := rest })
  | .read n :: rest => .words ⟨.read n, []⟩ { s with inbox := rest }
  | .write n v :: rest => .words ⟨.write n, [v]⟩ { s with inbox := rest }
  | .resetInput :: rest => .quiet (resetBlock { s with inbox := rest })

/-- The state with the words `ws` loaded as the whole stream, the block about to decode word 0 in phase `ph`. -/
def placeStream (ph : Phase) (ws : List Word) (s : State) : State :=
  { s with
    stream := Memory.ofStream (ws.flatMap bytesOfWord) ws.length
    n := BitVec.ofNat 24 ws.length
    streamValid := true
    pos := 0#32
    phase := ph
    inbox := .block :: s.inbox }

/-- The state whose next turn brings the words of `e` to the decoder. -/
def placeEncoding (e : Encoding) (s : State) : State :=
  match e.port with
  | .scan => placeStream .scan e.words s
  | .demux => placeStream .main e.words s
  | .legacy => placeStream .legacy e.words s
  | .read n => { s with inbox := .read n :: s.inbox }
  | .write n => { s with inbox := .write n (e.words.headD 0#32) :: s.inbox }

end Sys2Proof.Machine
end

