-- ==== Sys2Proof/Machine/Step.lean ====
section
/-! DEFINITION. One step of the machine: one turn of the schedule, done whole (spec/00_scope.md R21). -/

namespace Sys2Proof.Machine

/-- One step: the turn's words are decoded and performed; a turn that brings no instruction ends as it is. -/
def step (s : State) : Host.Outcome State Fault Refusal :=
  match fetchNext s with
  | .quiet s1 => .next s1
  | .stopped r => .fault r
  | .words e s1 =>
    match decode e with
    | .ok i => exec i s1
    | .error _ => .fault .undecodable

/-- `s` with the instruction of `w`, numbered as spec/opcode_table.json numbers its bits, where the next step fetches:
a host access at the head of the schedule, or a stream loaded with those words and the block's turn next. -/
def State.withFetchWord (s : State) (nbits w : Nat) : State :=
  match tableEncoding nbits w with
  | none => s
  | some e => placeEncoding e s

end Sys2Proof.Machine
end

