-- ==== Sys2Proof/Safety.lean ====
section
/-! DEFINITION. The terms claims about the machine are made in: what a stream word is, the frames of the trace, the
invariant of the reachable states (spec/10_state.md R39 and the rules named with each part), and the bounds of a pass. -/

namespace Sys2Proof.Machine

/-- Stream word `k` is fixed, and is `w` (R22, R41): every byte of it is listed. -/
def State.Holds (s : State) (k : Nat) (w : Word) : Prop :=
  wordListed s.stream k = true ∧ wordAt s.stream k 0#32 = w

/-- Every word of the stream, the sentinel included, is fixed: the host kept its duties (R51, R110). -/
def State.StreamFixed (s : State) : Prop := ∀ k, k ≤ s.len → wordListed s.stream k = true

/-- `W[k]` of a fixed stream. -/
def State.word (s : State) (k : Nat) : Word := wordAt s.stream k 0#32

/-- A sync triple stands at index `p` (R67). -/
def State.tripleAt (s : State) (p : Nat) : Bool := isSyncTriple (s.word p) (s.word (p + 1)) (s.word (p + 2))

/-- The block takes the next step: its turn is listed, or no turn is; `rest` is the schedule after it. -/
def State.BlockTurn (s : State) (rest : List HostTurn) : Prop :=
  (s.inbox = [] ∧ rest = []) ∨ s.inbox = .block :: rest

/-- The decode condition of a stream instruction (R56): the phase and the cursor at which it can occur. A host
instruction occurs at none. -/
def State.canDecode (s : State) : Instr → Prop
  | .scanEnd => s.phase = .scan ∧ s.len - 1 ≤ s.pos.toNat
  | .sync3 _ _ _ => s.phase = .scan ∧ s.pos.toNat < s.len - 1
  | .scanSkip _ _ _ => s.phase = .scan ∧ s.pos.toNat < s.len - 1
  | .streamEnd => (s.phase = .warmup ∨ s.phase = .main) ∧ s.len ≤ s.pos.toNat
  | .fillPair => (s.phase = .warmup ∨ s.phase = .main) ∧ s.pos.toNat < s.len
  | .data _ _ => (s.phase = .warmup ∨ s.phase = .main) ∧ s.pos.toNat < s.len
  | .lEnd => s.phase = .legacy ∧ s.len ≤ s.pos.toNat
  | .lRec _ _ _ _ => s.phase = .legacy ∧ s.pos.toNat < s.len
  | .nop _ => False
  | .load _ => False
  | .findSync _ => False
  | .run _ _ => False
  | .ringInit _ => False
  | .reset _ => False
  | .cmdReserved _ => False
  | .rdreg _ => False
  | .wrreg _ _ => False

/-- The `FrameDone` events of a trace, in order (R80, R88): the frame of sequence number `q` is entry `q`. -/
def framesOf : List Event → List (Fin 33 × Bool × Frame)
  | [] => []
  | .frameDone slot valid samples :: rest => (slot, valid, samples) :: framesOf rest
  | .sample16 _ _ :: rest => framesOf rest
  | .fault _ :: rest => framesOf rest

/-- The per-channel sequence the sink is handed in the legacy mode: the values of channel `ch`, in order (R100). -/
def samplesOf (ch : Fin 16) : List Event → List Half
  | [] => []
  | .frameDone _ _ _ :: rest => samplesOf ch rest
  | .sample16 c v :: rest => if c = ch then v :: samplesOf ch rest else samplesOf ch rest
  | .fault _ :: rest => samplesOf ch rest

/-- `F`: the frames completed since the last `RING_INIT` or `RESET` (R39 g). -/
def State.frames (s : State) : Nat := (framesOf s.trace).length

/-- The slot of the frame with sequence number `q` (R85). -/
def slotOf (q : Nat) : Fin 33 := ⟨q % 33, Nat.mod_lt _ (by decide)⟩

/-- Every piece of the block's state is at the reset value the spec states (R40); the stream memory, whose contents it
leaves open, cannot be read. -/
def State.AtReset (s : State) : Prop :=
  s.phase = .idle ∧ s.streamValid = false ∧ s.len = 0 ∧ s.pos = 0#32 ∧ s.start = 0#32 ∧ s.byteLen = 0#32 ∧
  s.ringSeq = 0#32 ∧ s.ringI = 0 ∧ s.ringCi = 0 ∧ s.ringCount = 0 ∧
  (∀ slot k, ringCell s slot k = none) ∧
  s.syncFound = false ∧ s.syncNotFound = false ∧ s.truncated = false ∧ s.cmdRefused = false ∧
  s.err = 0#4 ∧ s.syncIndex = 0#32 ∧ s.afterScan = .done ∧ s.mode = .roundRobin ∧
  (∀ ch : Fin 16, s.chbuf[ch] = []) ∧ s.trace = [] ∧
  ∀ k, readWord k s = .error .streamNotValid

/-- What holds at reset and is kept by every step. -/
structure Inv (s : State) : Prop where
  /-- the memory is in its canonical form. -/
  streamWf : s.stream.wf
  /-- the stream memory has no index above `N` (R45). -/
  streamBound : ∀ c ∈ s.stream, c.1 < 4 * s.len + 4
  /-- `N ≤ 8388608` (R22, R39 d). -/
  lenBound : s.len ≤ Config.maxWords
  /-- `W[N] = 0` while there is a stream (R39 d). -/
  sentinel : s.streamValid = true → s.Holds s.len Config.sentinel
  /-- without a valid stream nothing of one exists (R119). -/
  noStream : s.streamValid = false → s.stream = [] ∧ s.len = 0
  /-- a busy block has a stream (R102). -/
  busyLoaded : s.isBusy = true → s.streamValid = true
  /-- WARMUP with a full ring is not a reachable state (R146). -/
  warmupNotFull : s.phase = .warmup → s.ringCount.val ≠ 33
  /-- `ring.count = min(F, 33)` (R39 g). -/
  countIsFrames : s.ringCount.val = min s.frames 33
  /-- `ring.i = F mod 33` (R39 g). -/
  slotIsFrames : s.ringI = slotOf s.frames
  /-- the channels below `ring.ci` of slot `ring.i` have been written (R39 h). -/
  begunWritten : ∀ k : Fin 16, k < s.ringCi → (ringCell s s.ringI k).isSome = true
  /-- the `q`th frame was in slot `q mod 33` (R80). -/
  frameSlots : ∀ q e, (framesOf s.trace)[q]? = some e → e.1 = slotOf q
  /-- a completed frame has all its 16 samples (R39, R7). -/
  framesWhole : ∀ e ∈ framesOf s.trace, ∀ k : Fin 16, (e.2.2[k]).isSome = true
  /-- the ring holds the last 33 frames, but for the channels the frame in progress has overwritten (R90, R92). -/
  retained : ∀ q e, (framesOf s.trace)[q]? = some e → s.frames ≤ q + 33 →
    ∀ k : Fin 16, (slotOf q = s.ringI → s.ringCi ≤ k) → ringCell s (slotOf q) k = e.2.2[k]
  /-- the block writes no code to `err` but 0, 2, 3 and 6 (R113, R114). -/
  errCodes : s.err = 0#4 ∨ s.err = 2#4 ∨ s.err = 3#4 ∨ s.err = 6#4
  /-- phase FAULT is where `ChannelOverflow` leads, and it alone (R26, R119). -/
  faultIsOverflow : s.phase = .fault ↔ s.err = 6#4
  /-- a scan result is not both found and not found (R31, R67, R69). -/
  oneScanResult : ¬ (s.syncFound = true ∧ s.syncNotFound = true)
  /-- `chlen[ch] ≤ LEGACY_CAP` (R36, R143). -/
  withinCap : ∀ ch : Fin 16, chLen s ch ≤ s.legacyCap
  /-- a legacy pass has latched the legacy mode (R37, R93). -/
  legacyMode : s.phase = .legacy → s.mode = .legacy
  /-- a round-robin pass, its initial scan included, has latched the round-robin mode (R37, R72). -/
  roundRobinMode : s.phase = .warmup ∨ s.phase = .main ∨ (s.phase = .scan ∧ s.afterScan = .warmup) →
    s.mode = .roundRobin

/-- The loop of a round-robin pass (R83) over the data words left, as a function of the words alone: a filler pair
drops its second word and the two after it (R77), any other word is stored (R78). The second component is how many
words were still to be dropped when the stream ended. The lookahead of the last word is the sentinel (R76). -/
def demuxLoop : List Word → Nat → State → State × Nat
  | [], skip, s => (s, skip)
  | _ :: rest, skip + 1, s => demuxLoop rest skip s
  | w :: rest, 0, s =>
    if isFillerPair w (rest.headD Config.sentinel) then demuxLoop rest (Config.fillerAdvance - 1) s
    else demuxLoop rest 0 (nextChannel (storeSample w s))

/-- A run of `k` steps from `s` ends, without a stop, in `t`. -/
def RunsTo (k : Nat) (s t : State) : Prop := Host.Core.run Sys2Proof.core k s = .next t

end Sys2Proof.Machine
end

