-- ==== Sys2Proof/Certificates/Slice0/Obligations.lean ====
section
/-! DEFINITION. The statements for the provers, each a `Prop`. A docstring names the rule of spec/ it formalises. -/

open Sys2Proof Sys2Proof.Machine

/-! ### Encoding -/

/-- R11: the sync field is bits 26:24, equally a shift and a mask, equally the part the mask `0x07000000` selects. -/
def Obligations.SyncFieldIsBits26To24 : Prop :=
  ∀ w : Word,
    (syncField w).toNat = w.toNat / 2 ^ 24 % 8 ∧
    (syncField w).setWidth 32 = (w >>> 24) &&& 0x7#32 ∧
    (syncField w).setWidth 32 = (w &&& 0x07000000#32) >>> 24

/-- R53 to R58, R95, R96: a word of every family written out from its encoding decodes to its instruction. -/
def Obligations.KnownWordsDecode : Prop :=
  decode ⟨.scan, [0x00000001#32, 0x01000002#32, 0x00000003#32]⟩
      = .ok (.sync3 0x00000001#32 0x01000002#32 0x00000003#32) ∧
  decode ⟨.scan, [0xEEEEEEEE#32, 0x01000000#32, 0x00000000#32]⟩
      = .ok (.scanSkip 0xEEEEEEEE#32 0x01000000#32 0x00000000#32) ∧
  decode ⟨.demux, [0xEEEEEEEE#32, 0xEEEEEEEE#32]⟩ = .ok .fillPair ∧
  decode ⟨.demux, [0xEEEEEEEE#32, 0x00000000#32]⟩ = .ok (.data 0xEEEEEEEE#32 0x00000000#32) ∧
  decode ⟨.legacy, [0xC5AB1234#32]⟩ = .ok (.lRec 0xC#4 0x5#4 0xAB#8 0x1234#16) ∧
  decode ⟨.write 0, [0x00000013#32]⟩ = .ok (.run .roundRobin true) ∧
  decode ⟨.write 0, [0x00000023#32]⟩ = .ok (.run .legacy false) ∧
  decode ⟨.write 0, [0x0000000F#32]⟩ = .ok (.reset 0#2) ∧
  decode ⟨.write 0, [0x0000004F#32]⟩ = .ok (.cmdReserved 0x0000004F#32) ∧
  decode ⟨.write 10, [0x00000021#32]⟩ = .ok (.wrreg 10 0x00000021#32) ∧
  decode ⟨.read 4, []⟩ = .ok (.rdreg 4)

/-- R56, R58: every well-formed instruction, with every operand at every value, is read back from its own words. -/
def Obligations.DecodeOfEncodeIsTheInstruction : Prop :=
  ∀ i : Instr, i.wf = true → decode (encode i) = .ok i

/-- R56, R58: words that decode to an instruction are the words of that instruction, and it is well-formed. So no two
encodings share a meaning and no bit of one is dropped. -/
def Obligations.EncodeOfDecodeIsTheWords : Prop :=
  ∀ (e : Encoding) (i : Instr), decode e = .ok i → encode i = e ∧ i.wf = true

/-- R58, R106: the six commands are the `CMD` values that match their pattern under `0xFFFFFFCF`, all else reserved. -/
def Obligations.CommandsDecodeByMatchAndMask : Prop :=
  ∀ v : Word,
    ((∃ x, decodeCommand v = .nop x) ↔ v &&& 0xFFFFFFCF#32 = 0x00000000#32) ∧
    ((∃ x, decodeCommand v = .load x) ↔ v &&& 0xFFFFFFCF#32 = 0x00000001#32) ∧
    ((∃ x, decodeCommand v = .findSync x) ↔ v &&& 0xFFFFFFCF#32 = 0x00000002#32) ∧
    ((∃ m b, decodeCommand v = .run m b) ↔ v &&& 0xFFFFFFCF#32 = 0x00000003#32) ∧
    ((∃ x, decodeCommand v = .ringInit x) ↔ v &&& 0xFFFFFFCF#32 = 0x00000004#32) ∧
    ((∃ x, decodeCommand v = .reset x) ↔ v &&& 0xFFFFFFCF#32 = 0x0000000F#32) ∧
    (decodeCommand v = .cmdReserved v ↔
      (5 ≤ v.toNat % 16 ∧ v.toNat % 16 ≤ 14) ∨ v.toNat / 64 ≠ 0)

/-- R56, R57: decode is total. Every window of the length its phase tests, whatever its words, is an instruction, and
so is every host access; nothing but a wrong length is refused. -/
def Obligations.EveryWindowDecodes : Prop :=
  ∀ e : Encoding,
    (∃ i, decode e = .ok i) ↔
      match e.port with
      | .scan => e.words.length = 0 ∨ e.words.length = 3
      | .demux => e.words.length = 0 ∨ e.words.length = 2
      | .legacy => e.words.length = 0 ∨ e.words.length = 1
      | .read _ => e.words.length = 0
      | .write _ => e.words.length = 1

/-! ### The step -/

/-- R21, R56: a step runs the instruction its turn's words decode to, in the state the fetch leaves. -/
def Obligations.StepRunsDecodedInstruction : Prop :=
  ∀ (s s1 : State) (e : Encoding) (i : Instr),
    fetchNext s = .words e s1 → decode e = .ok i → step s = exec i s1

/-- R21, R56, R66, R76, R94: on the block's turn, with the words at the cursor fixed, the step runs the instruction the
decode table gives for the phase, the cursor and those words; at the bound it runs the phase's end instruction. The
only other change of the step is that the turn is taken off the schedule, which is the model's own (log entry 5). -/
def Obligations.BlockTurnRunsTheCursorWords : Prop :=
  ∀ (s : State) (rest : List HostTurn), s.BlockTurn rest → s.streamValid = true →
    (s.phase = .scan →
      (s.len - 1 ≤ s.pos.toNat → step s = exec .scanEnd { s with inbox := rest }) ∧
      (∀ w0 w1 w2, s.pos.toNat < s.len - 1 → s.Holds s.pos.toNat w0 → s.Holds (s.pos.toNat + 1) w1 →
        s.Holds (s.pos.toNat + 2) w2 →
        step s = exec (if isSyncTriple w0 w1 w2 then .sync3 w0 w1 w2 else .scanSkip w0 w1 w2)
          { s with inbox := rest })) ∧
    (s.phase = .warmup ∨ s.phase = .main →
      (s.len ≤ s.pos.toNat → step s = exec .streamEnd { s with inbox := rest }) ∧
      (∀ w0 w1, s.pos.toNat < s.len → s.Holds s.pos.toNat w0 → s.Holds (s.pos.toNat + 1) w1 →
        step s = exec (if w0 = 0xEEEEEEEE#32 ∧ w1 = 0xEEEEEEEE#32 then .fillPair else .data w0 w1)
          { s with inbox := rest })) ∧
    (s.phase = .legacy →
      (s.len ≤ s.pos.toNat → step s = exec .lEnd { s with inbox := rest }) ∧
      (∀ w, s.pos.toNat < s.len → s.Holds s.pos.toNat w →
        step s = exec (.lRec (w.extractLsb' 28 4) (w.extractLsb' 24 4) (w.extractLsb' 16 8) (w.extractLsb' 0 16))
          { s with inbox := rest }))

/-- R21, R58, R130: on a turn of the host's the step performs the access (a write to `CMD` is the command of its
value), or the reset input, and only takes the turn off the schedule (log entry 5) besides. -/
def Obligations.HostTurnRunsTheAccess : Prop :=
  ∀ (s : State) (rest : List HostTurn),
    (∀ n, s.inbox = .read n :: rest → step s = exec (.rdreg n) { s with inbox := rest }) ∧
    (∀ v, s.inbox = .write 0 v :: rest → step s = exec (decodeCommand v) { s with inbox := rest }) ∧
    (∀ n v, n ≠ 0 → s.inbox = .write n v :: rest → step s = exec (.wrreg n v) { s with inbox := rest }) ∧
    (s.inbox = .resetInput :: rest → step s = exec (.reset 0#2) { s with inbox := rest })

/-- R26, R129: a block that is not busy does nothing on its turn. -/
def Obligations.IdleBlockDoesNothing : Prop :=
  ∀ (s : State) (rest : List HostTurn), s.BlockTurn rest → s.isBusy = false →
    step s = .next { s with inbox := rest }

/-- R51, R52, R139: when the host presents a buffer, a data word whose record it left as it was still reads the same,
one whose record it changed is no longer fixed, and the sentinel and every other state keep their values. That it holds
while the block is idle too is the model's choice (log entry 9). -/
def Obligations.PresentedBufferFreesChangedWords : Prop :=
  ∀ (s : State) (bytes : List Byte) (rest : List HostTurn), s.inbox = .present bytes :: rest →
    ∃ t, step s = .next t ∧
      t = { s with inbox := rest, hostBuf := bytes, stream := t.stream } ∧
      (∀ a, s.len ≤ a / 4 → t.stream.read a = s.stream.read a) ∧
      (∀ k, k < s.len →
        ((∀ j, j < 4 → s.stream.read (4 * k + j) = bytes[4 * k + j]?) →
          ∀ j, j < 4 → t.stream.read (4 * k + j) = s.stream.read (4 * k + j)) ∧
        ((∃ j, j < 4 ∧ s.stream.read (4 * k + j) ≠ bytes[4 * k + j]?) →
          ∀ j, j < 4 → t.stream.read (4 * k + j) = none))

/-! ### Phase SCAN -/

/-- R67: SYNC3 leaves the index of the triple's first word in `sync_index`, sets `sync_found`, moves the cursor by 3
and enters `after_scan` (MAIN in place of WARMUP when the ring is full, R75); nothing else changes. -/
def Obligations.Sync3Result : Prop :=
  ∀ (w0 w1 w2 : Word) (s : State),
    exec (.sync3 w0 w1 w2) s = .next { s with
      syncIndex := s.pos
      syncFound := true
      syncNotFound := false
      pos := s.pos + 3#32
      phase := match s.afterScan with
        | .done => .done
        | .warmup => if s.ringCount.val = 33 then .main else .warmup }

/-- R68: SCANSKIP moves the cursor by 1 and changes nothing else. -/
def Obligations.ScanSkipResult : Prop :=
  ∀ (w0 w1 w2 : Word) (s : State),
    exec (.scanSkip w0 w1 w2) s = .next { s with pos := s.pos + 1#32 }

/-- R69: SCANEND leaves the cursor where it is and in `sync_index`, reports `SyncNotFound`, and enters `after_scan`
(R75); nothing else changes. -/
def Obligations.ScanEndResult : Prop :=
  ∀ s : State,
    exec .scanEnd s = .next { s with
      syncIndex := s.pos
      syncFound := false
      syncNotFound := true
      phase := match s.afterScan with
        | .done => .done
        | .warmup => if s.ringCount.val = 33 then .main else .warmup }

/-- R70: the scan as a function. From phase SCAN over a fixed stream, with no host turn in between, it ends at the
first triple at or after the cursor, after (its index − cursor + 1) steps, or, where there is none below `N ∸ 1`, at
`max(cursor, N ∸ 1)` after as many. -/
def Obligations.ScanFindsTheFirstTriple : Prop :=
  ∀ s : State, s.streamValid = true → s.StreamFixed → s.phase = .scan → s.inbox = [] →
    (∀ p, s.pos.toNat ≤ p → p < s.len - 1 → s.tripleAt p = true →
      (∀ q, s.pos.toNat ≤ q → q < p → s.tripleAt q = false) →
      RunsTo (p - s.pos.toNat + 1) s (enterAfterScan { s with
        syncIndex := BitVec.ofNat 32 p
        syncFound := true
        syncNotFound := false
        pos := BitVec.ofNat 32 (p + 3) })) ∧
    ((∀ q, s.pos.toNat ≤ q → q < s.len - 1 → s.tripleAt q = false) →
      RunsTo (max s.pos.toNat (s.len - 1) - s.pos.toNat + 1) s (enterAfterScan { s with
        syncIndex := BitVec.ofNat 32 (max s.pos.toNat (s.len - 1))
        syncFound := false
        syncNotFound := true
        pos := BitVec.ofNat 32 (max s.pos.toNat (s.len - 1)) }))

/-! ### Phases WARMUP and MAIN -/

/-- R10, R77: FILLPAIR moves the cursor by 4 and changes nothing else. -/
def Obligations.FillPairResult : Prop :=
  ∀ s : State, exec .fillPair s = .next { s with pos := s.pos + 4#32 }

/-- R29, R78: DATA below channel 15 stores the whole word in the cell at the cursors, moves `ring.ci` and the stream
cursor by 1, and changes no other cell and nothing else. -/
def Obligations.DataStoresMidFrame : Prop :=
  ∀ (w next : Word) (s : State), s.ringCi.val ≠ 15 →
    ∃ t, exec (.data w next) s = .next t ∧
      t = { s with ring := t.ring, ringCi := t.ringCi, pos := s.pos + 1#32 } ∧
      t.ringCi.val = s.ringCi.val + 1 ∧
      (∀ slot k, ringCell t slot k =
        if slot = s.ringI ∧ k = s.ringCi then some w else ringCell s slot k) ∧
      ∀ a, t.stream.read a = s.stream.read a

/-- R28, R29, R30, R75, R78, R80: DATA at channel 15 stores the word, hands the sink the slot's 16 cells marked valid in
phase MAIN only, goes to channel 0 of the next slot mod 33, counts the frame up to 33, ends the warm-up when the ring
is full, and changes no other cell and nothing else. -/
def Obligations.DataCompletesFrame : Prop :=
  ∀ (w next : Word) (s : State), s.ringCi.val = 15 →
    ∃ (t : State) (samples : Frame), exec (.data w next) s = .next t ∧
      t = { s with
        ring := t.ring
        ringCi := 0
        ringI := t.ringI
        ringCount := t.ringCount
        phase := t.phase
        trace := s.trace ++ [.frameDone s.ringI (decide (s.phase = .main)) samples]
        pos := s.pos + 1#32 } ∧
      t.ringI.val = (s.ringI.val + 1) % 33 ∧
      t.ringCount.val = min (s.ringCount.val + 1) 33 ∧
      t.phase = (if s.phase = .warmup ∧ t.ringCount.val = 33 then .main else s.phase) ∧
      (∀ slot k, ringCell t slot k =
        if slot = s.ringI ∧ k = s.ringCi then some w else ringCell s slot k) ∧
      (∀ k : Fin 16, samples[k] = ringCell t s.ringI k) ∧
      ∀ a, t.stream.read a = s.stream.read a

/-- R79: STREAMEND sets `truncated` to `ring.ci ≠ 0`, ends the pass, and changes nothing else. -/
def Obligations.StreamEndResult : Prop :=
  ∀ s : State, exec .streamEnd s = .next { s with truncated := decide (s.ringCi.val ≠ 0), phase := .done }

/-- R78, R144: routing is by position in the cycle, not by anything in the word: two DATA steps from one state, whatever
their words, leave the same cursors, count, phase and stream position, and every cell but the stored one alike. -/
def Obligations.RoutingIgnoresTheWord : Prop :=
  ∀ (s t t' : State) (w w' next next' : Word),
    exec (.data w next) s = .next t → exec (.data w' next') s = .next t' →
    t' = { t with ring := t'.ring, trace := t'.trace } ∧
    (∀ slot k, ¬(slot = s.ringI ∧ k = s.ringCi) → ringCell t' slot k = ringCell t slot k) ∧
    (framesOf t'.trace).map (fun e => (e.1, e.2.1)) = (framesOf t.trace).map (fun e => (e.1, e.2.1))

/-- R78, R80, R85 (the source's §8 round trip): from the first channel of a slot, sixteen fixed words no two
neighbours of which are a filler pair become the frame of that slot, one word a channel in order, in sixteen steps;
the cursors stand at the next slot, and one event hands the frame to the sink. -/
def Obligations.SixteenWordsMakeAFrame : Prop :=
  ∀ (s : State) (ws : Vector Word 16), s.streamValid = true → s.inbox = [] →
    s.phase = .main ∨ s.phase = .warmup → s.ringCi.val = 0 → s.pos.toNat + 16 ≤ s.len →
    (∀ k : Fin 16, s.Holds (s.pos.toNat + k) ws[k]) → wordListed s.stream (s.pos.toNat + 16) = true →
    (∀ k : Fin 16, isFillerPair (s.word (s.pos.toNat + k)) (s.word (s.pos.toNat + k + 1)) = false) →
    ∃ t, RunsTo 16 s t ∧
      t.pos = s.pos + 16#32 ∧ t.ringCi = 0 ∧ t.ringI = s.ringI + 1 ∧
      t.ringCount.val = min (s.ringCount.val + 1) 33 ∧
      t.trace = s.trace ++ [.frameDone s.ringI (decide (s.phase = .main)) (ws.map some)] ∧
      ∀ slot k, ringCell t slot k = if slot = s.ringI then some ws[k] else ringCell s slot k

/-- R83: a round-robin pass over a fixed stream is the loop of the source over the data words left, taken one after the
other, filler pairs costing four; it ends at the end of the stream (or at the cursor, if that lay beyond), or as many
words past it as a filler pair at the very end had still to skip, with `truncated` as `ring.ci` says. -/
def Obligations.PassIsTheLoopOverTheWords : Prop :=
  ∀ s : State, s.streamValid = true → s.StreamFixed → s.word s.len = 0#32 → s.inbox = [] →
    s.phase = .warmup ∨ s.phase = .main →
    ∃ k, k ≤ (s.len - s.pos.toNat) + 1 ∧
      RunsTo k s
        (let r := demuxLoop ((List.range (s.len - s.pos.toNat)).map fun j => s.word (s.pos.toNat + j)) 0 s
         { r.1 with
           pos := BitVec.ofNat 32 (max s.pos.toNat s.len + r.2)
           truncated := decide (r.1.ringCi.val ≠ 0)
           phase := .done })

/-! ### Phase LEGACY -/

/-- R95 to R98: with room for two values, LREC appends `V0` and then `V1` to the buffer of channel `b3 & 0xF`, with an
event for each, and moves the cursor by one record; nothing else changes. `V1` is the open parameter `LEGACY_V1`, a
free value (log entry 3): the statement holds for every value of it. -/
def Obligations.LrecAppendsBothValues : Prop :=
  ∀ (hi tag : BitVec 4) (b2 : Byte) (v0 : Half) (s : State),
    chLen s tag.toFin + 2 ≤ s.legacyCap →
    ∃ (t : State) (v1 : Half), exec (.lRec hi tag b2 v0) s = .next t ∧
      v1 = Config.legacyV1 (loadedBytes s) (4 * s.len) s.pos.toNat s.draws ∧
      t = { s with
        chbuf := t.chbuf
        trace := s.trace ++ [.sample16 tag.toFin v0, .sample16 tag.toFin v1]
        pos := s.pos + 1#32
        draws := s.draws + 1 } ∧
      (∀ ch : Fin 16, t.chbuf[ch] = if ch = tag.toFin then s.chbuf[ch] ++ [v0, v1] else s.chbuf[ch]) ∧
      ∀ a, t.stream.read a = s.stream.read a

/-- R99, R119, R120: LREC on a full channel raises `ChannelOverflow`: code 6 in `err`, `Fault(6)`, phase FAULT, the
cursor at the record; with room for one value the first is appended and the overflow comes at the second. -/
def Obligations.LrecOverflows : Prop :=
  ∀ (hi tag : BitVec 4) (b2 : Byte) (v0 : Half) (s : State),
    (chLen s tag.toFin = s.legacyCap →
      ∃ t, exec (.lRec hi tag b2 v0) s = .next t ∧
        t = { s with err := 6#4, trace := s.trace ++ [.fault 6#4], phase := .fault, draws := t.draws }) ∧
    (chLen s tag.toFin + 1 = s.legacyCap →
      ∃ t, exec (.lRec hi tag b2 v0) s = .next t ∧
        t = { s with
          chbuf := t.chbuf
          err := 6#4
          trace := s.trace ++ [.sample16 tag.toFin v0, .fault 6#4]
          phase := .fault
          draws := t.draws } ∧
        ∀ ch : Fin 16, t.chbuf[ch] = if ch = tag.toFin then s.chbuf[ch] ++ [v0] else s.chbuf[ch])

/-- R100: LEND ends the pass and changes nothing else. -/
def Obligations.LendResult : Prop :=
  ∀ s : State, exec .lEnd s = .next { s with phase := .done }

/-- R101: the modes are separate. The legacy instructions touch no part of the ring and complete no frame; the
round-robin ones touch no channel buffer and emit no 16-bit value. -/
def Obligations.ModesAreSeparate : Prop :=
  ∀ (s t : State),
    ((∃ hi tag b2 v0, exec (.lRec hi tag b2 v0) s = .next t) ∨ exec .lEnd s = .next t →
      t.ring = s.ring ∧ t.ringI = s.ringI ∧ t.ringCi = s.ringCi ∧ t.ringCount = s.ringCount ∧
      framesOf t.trace = framesOf s.trace) ∧
    ((∃ w next, exec (.data w next) s = .next t) ∨ exec .fillPair s = .next t ∨ exec .streamEnd s = .next t →
      t.chbuf = s.chbuf ∧ ∀ ch, samplesOf ch t.trace = samplesOf ch s.trace)

/-- R100: what a legacy pass hands the sink. With the buffers and the trace in step (as `RUN` and `RING_INIT` leave them
empty), a legacy step keeps each channel's buffer equal to its 16-bit events, in order. -/
def Obligations.LegacyEventsAreTheBuffers : Prop :=
  ∀ (hi tag : BitVec 4) (b2 : Byte) (v0 : Half) (s t : State),
    (∀ ch : Fin 16, samplesOf ch s.trace = s.chbuf[ch]) →
    exec (.lRec hi tag b2 v0) s = .next t → ∀ ch : Fin 16, samplesOf ch t.trace = t.chbuf[ch]

/-! ### Host commands -/

/-- R104: NOP is a write to `CMD` with `OP = 0`; it clears `cmd_refused`, in every phase, and changes nothing else. -/
def Obligations.NopResult : Prop :=
  (∀ x : BitVec 2, encode (.nop x) = ⟨.write 0x00, [0#26 ++ x ++ 0#4]⟩) ∧
  ∀ (x : BitVec 2) (s : State), exec (.nop x) s = .next { s with cmdRefused := false }

/-- R60, R62, R63: LOAD of a length that is a multiple of 4 and at most 32 MiB, in phase IDLE or DONE, gives
`N = L / 4`, a valid stream, `err` 0, phase IDLE, cursor 0 and no scan result; the ring, its cursors and count and
`truncated` stay. The words are those of the bytes the host presents, little-endian, and `W[N] = 0`. -/
def Obligations.LoadBuildsTheStream : Prop :=
  ∀ (x : BitVec 2) (s : State), s.phase = .idle ∨ s.phase = .done →
    s.byteLen.toNat % 4 = 0 → s.byteLen.toNat ≤ 33554432 →
    ∃ t, exec (.load x) s = .next t ∧
      t = { s with
        stream := t.stream
        n := t.n
        streamValid := true
        err := 0#4
        phase := .idle
        pos := 0#32
        syncFound := false
        syncNotFound := false
        cmdRefused := false } ∧
      4 * t.len = s.byteLen.toNat ∧
      t.Holds t.len 0#32 ∧
      (∀ a b, a < s.byteLen.toNat → s.hostBuf[a]? = some b → t.stream.read a = some b) ∧
      (∀ a, s.byteLen.toNat + 4 ≤ a → t.stream.read a = none) ∧
      ∀ k b0 b1 b2 b3, k < t.len →
        s.hostBuf[4 * k]? = some b0 → s.hostBuf[4 * k + 1]? = some b1 →
        s.hostBuf[4 * k + 2]? = some b2 → s.hostBuf[4 * k + 3]? = some b3 →
        t.Holds k (BitVec.ofNat 32 (b0.toNat + 2 ^ 8 * b1.toNat + 2 ^ 16 * b2.toNat + 2 ^ 24 * b3.toNat))

/-- R60, R61, R62, R119, R122: LOAD of a length that is no multiple of 4 (checked first) or else above 32 MiB, in phase
IDLE or DONE, leaves no stream, the code 2 or 3 in `err`, a `Fault` event, phase IDLE, cursor 0 and no scan result. -/
def Obligations.FailedLoadLeavesNoStream : Prop :=
  ∀ (x : BitVec 2) (s : State), s.phase = .idle ∨ s.phase = .done →
    s.byteLen.toNat % 4 ≠ 0 ∨ 33554432 < s.byteLen.toNat →
    exec (.load x) s = .next { s with
      stream := []
      n := 0#24
      streamValid := false
      err := if s.byteLen.toNat % 4 ≠ 0 then 2#4 else 3#4
      trace := s.trace ++ [.fault (if s.byteLen.toNat % 4 ≠ 0 then 2#4 else 3#4)]
      phase := .idle
      pos := 0#32
      syncFound := false
      syncNotFound := false
      cmdRefused := false }

/-- R65: FIND_SYNC with a valid stream, in phase IDLE or DONE, starts a scan at `START` that leads to DONE. -/
def Obligations.FindSyncStartsAScan : Prop :=
  ∀ (x : BitVec 2) (s : State), s.phase = .idle ∨ s.phase = .done → s.streamValid = true →
    exec (.findSync x) s = .next { s with
      pos := s.start
      syncFound := false
      syncNotFound := false
      afterScan := .done
      phase := .scan
      cmdRefused := false }

/-- R72: RUN in round-robin mode with a valid stream, in phase IDLE or DONE, starts at `START`, in phase SCAN leading to
WARMUP with the initial sync and in phase MAIN without it; the ring stays as it stands. -/
def Obligations.RunStartsARoundRobinPass : Prop :=
  ∀ (sync : Bool) (s : State), s.phase = .idle ∨ s.phase = .done → s.streamValid = true →
    exec (.run .roundRobin sync) s = .next { s with
      mode := .roundRobin
      pos := s.start
      syncFound := false
      syncNotFound := false
      truncated := false
      afterScan := if sync then .warmup else s.afterScan
      phase := if sync then .scan else .main
      cmdRefused := false }

/-- R93: RUN in legacy mode with a valid stream, in phase IDLE or DONE, empties the channel buffers and starts a legacy
pass at `START`, whatever the option `DO_INITIAL_SYNC`. -/
def Obligations.RunStartsALegacyPass : Prop :=
  ∀ (sync : Bool) (s : State), s.phase = .idle ∨ s.phase = .done → s.streamValid = true →
    ∃ t, exec (.run .legacy sync) s = .next t ∧
      t = { s with
        mode := .legacy
        pos := s.start
        syncFound := false
        syncNotFound := false
        truncated := false
        chbuf := t.chbuf
        phase := .legacy
        cmdRefused := false } ∧
      ∀ ch : Fin 16, t.chbuf[ch] = []

/-- R86: RING_INIT is a write to `CMD` with `OP = 4`. In phase IDLE or DONE, with or without a stream, it makes every
cell unwritten, the cursors and the count 0, clears `truncated`, empties the trace and leaves phase IDLE; nothing else
changes but `cmd_refused`, which every accepted command clears. In any other phase it is refused. -/
def Obligations.RingInitMakesAFreshRing : Prop :=
  ∀ (x : BitVec 2) (s : State),
    encode (.ringInit x) = ⟨.write 0x00, [0#26 ++ x ++ 4#4]⟩ ∧
    (s.phase = .idle ∨ s.phase = .done →
      ∃ t, exec (.ringInit x) s = .next t ∧
        t = { s with
          ring := t.ring
          ringI := 0
          ringCi := 0
          ringCount := 0
          truncated := false
          trace := []
          phase := .idle
          cmdRefused := false } ∧
        ∀ slot k, ringCell t slot k = none) ∧
    (s.phase ≠ .idle ∧ s.phase ≠ .done → exec (.ringInit x) s = .next { s with cmdRefused := true })

/-- R40, R105, R130: RESET, in every phase, and the hardware reset input alike put every piece of the block's state at
its reset value. -/
def Obligations.ResetCommandResets : Prop :=
  (∀ (x : BitVec 2) (s : State), ∃ t, exec (.reset x) s = .next t ∧ t.AtReset) ∧
  ∀ (s : State) (rest : List HostTurn), s.inbox = .resetInput :: rest → ∃ t, step s = .next t ∧ t.AtReset

/-- The model's choice, log entry 7: RESET leaves what is not the block's (the host's buffer, its turns to come, what it
last read), the model's count of draws and the machine's capacity; every other field is as at reset. -/
def Obligations.ResetKeepsTheHostsSide : Prop :=
  ∀ (x : BitVec 2) (s : State),
    exec (.reset x) s = .next { State.reset with
      hostBuf := s.hostBuf, inbox := s.inbox, rdData := s.rdData, draws := s.draws, legacyCap := s.legacyCap }

/-- R106: a `CMD` value whose `OP` is 5 to 14, or with a bit of 31:6 set, is refused in every phase: `cmd_refused` and
nothing else. No command but RUN looks at bits 5:4. -/
def Obligations.ReservedCommandIsRefused : Prop :=
  (∀ v : Word, (5 ≤ v.toNat % 16 ∧ v.toNat % 16 ≤ 14) ∨ v.toNat / 64 ≠ 0 → decodeCommand v = .cmdReserved v) ∧
  (∀ (v : Word) (s : State), exec (.cmdReserved v) s = .next { s with cmdRefused := true }) ∧
  ∀ (x y : BitVec 2) (s : State),
    exec (.nop x) s = exec (.nop y) s ∧ exec (.load x) s = exec (.load y) s ∧
    exec (.findSync x) s = exec (.findSync y) s ∧ exec (.ringInit x) s = exec (.ringInit y) s ∧
    exec (.reset x) s = exec (.reset y) s

/-- R102, R103: a write to `CMD` is accepted or refused by the phase and `stream_valid` alone. An accepted command leaves
`cmd_refused` 0; a refused one sets it and changes nothing else. -/
def Obligations.AcceptanceTable : Prop :=
  ∀ (v : Word) (s : State), ∃ t, exec (decodeCommand v) s = .next t ∧
    (let accepted : Prop := match decodeCommand v with
      | .nop _ | .reset _ => True
      | .load _ | .ringInit _ => s.phase = .idle ∨ s.phase = .done
      | .findSync _ | .run _ _ => (s.phase = .idle ∨ s.phase = .done) ∧ s.streamValid = true
      | _ => False
    (accepted → t.cmdRefused = false) ∧ (¬ accepted → t = { s with cmdRefused := true }))

/-! ### Register accesses -/

/-- R32, R34, R107: RDREG while the block is not busy returns the register the table names (the ring window is
`RingWindowShowsTheSlot`), and a number not in the table reads 0; nothing of the block changes. -/
def Obligations.RdregReturnsTheRegister : Prop :=
  ∀ s : State, s.isBusy = false →
    exec (.rdreg 0x00) s = .next { s with rdData := 0#32 } ∧
    exec (.rdreg 0x01) s = .next { s with rdData := s.start } ∧
    exec (.rdreg 0x02) s = .next { s with rdData := s.byteLen } ∧
    exec (.rdreg 0x03) s = .next { s with rdData := s.n.setWidth 32 } ∧
    exec (.rdreg 0x04) s = .next { s with rdData := statusWord s } ∧
    exec (.rdreg 0x05) s = .next { s with rdData := s.pos } ∧
    exec (.rdreg 0x06) s = .next { s with rdData := s.syncIndex } ∧
    exec (.rdreg 0x07) s = .next { s with rdData := BitVec.ofNat 32 s.ringI } ∧
    exec (.rdreg 0x08) s = .next { s with rdData := BitVec.ofNat 32 s.ringCi } ∧
    exec (.rdreg 0x09) s = .next { s with rdData := BitVec.ofNat 32 s.ringCount } ∧
    exec (.rdreg 0x0A) s = .next { s with rdData := s.ringSeq } ∧
    (∀ n, n = 0x0B ∨ n = 0x0C ∨ n = 0x0D ∨ n = 0x0E ∨ n = 0x0F ∨ 0x20 ≤ n →
      exec (.rdreg n) s = .next { s with rdData := 0#32 })

/-- R89: the host writes a frame sequence number `q`, any 32-bit value, to `RING_SEQ`; from then on, while the block is
not busy, `RING_DATAk` reads the cell of slot `q mod 33` and channel `k` (where one has been written, R91), with no check
of which frame is there; reads change nothing of the block. -/
def Obligations.RingWindowShowsTheSlot : Prop :=
  ∀ (q : Word) (k : Fin 16) (s : State),
    exec (.wrreg 0x0A q) s = .next { s with ringSeq := q } ∧
    ∀ (slot : Fin 33) (w : Word), s.isBusy = false → slot.val = q.toNat % 33 → ringCell s slot k = some w →
      exec (.rdreg (0x10 + k)) { s with ringSeq := q } = .next { s with ringSeq := q, rdData := w }

/-- R91, R107, R138: while the block is busy `STATUS` and the host's own registers read exactly; a read of a cursor, the
count, the scan result or a ring cell, busy, or of an unwritten ring cell, in any phase, completes with a fresh draw of
`any32`. The value is free (log entry 2): the statement holds for every value of it. -/
def Obligations.RdregDrawsWhatIsNotFixed : Prop :=
  ∀ s : State,
    (s.isBusy = true →
      exec (.rdreg 0x04) s = .next { s with rdData := statusWord s } ∧
      exec (.rdreg 0x01) s = .next { s with rdData := s.start } ∧
      exec (.rdreg 0x02) s = .next { s with rdData := s.byteLen } ∧
      exec (.rdreg 0x03) s = .next { s with rdData := s.n.setWidth 32 } ∧
      exec (.rdreg 0x0A) s = .next { s with rdData := s.ringSeq } ∧
      (∀ n, n = 0x00 ∨ n = 0x0B ∨ n = 0x0C ∨ n = 0x0D ∨ n = 0x0E ∨ n = 0x0F ∨ 0x20 ≤ n →
        exec (.rdreg n) s = .next { s with rdData := 0#32 }) ∧
      ∀ n, n = 0x05 ∨ n = 0x06 ∨ n = 0x07 ∨ n = 0x08 ∨ n = 0x09 ∨ (0x10 ≤ n ∧ n < 0x20) →
        exec (.rdreg n) s = .next { s with rdData := Config.any32 s.draws, draws := s.draws + 1 }) ∧
    (∀ k : Fin 16, ringCell s (slotOf s.ringSeq.toNat) k = none →
      exec (.rdreg (0x10 + k)) s = .next { s with rdData := Config.any32 s.draws, draws := s.draws + 1 })

/-- R32, R35, R108: WRREG stores in `START`, `BYTELEN` and `RING_SEQ`, in any phase; a write to any other number but
`CMD` is ignored without any flag; a write to `CMD` performs the command of its value. -/
def Obligations.WrregStoresOrIsIgnored : Prop :=
  ∀ (v : Word) (s : State),
    exec (.wrreg 0x01 v) s = .next { s with start := v } ∧
    exec (.wrreg 0x02 v) s = .next { s with byteLen := v } ∧
    exec (.wrreg 0x0A v) s = .next { s with ringSeq := v } ∧
    (∀ n, n ≠ 0x00 → n ≠ 0x01 → n ≠ 0x02 → n ≠ 0x0A → exec (.wrreg n v) s = .next s) ∧
    exec (.wrreg 0x00 v) s = exec (decodeCommand v) s

/-- R34 (with R26): a read of `STATUS`, in every phase, returns these fields, the reserved bits 0; a write is ignored. -/
def Obligations.StatusFields : Prop :=
  ∀ s : State,
    (statusWord s).extractLsb' 0 3 = (match s.phase with
      | .idle => 0#3 | .scan => 1#3 | .warmup => 2#3 | .main => 3#3 | .legacy => 4#3 | .done => 5#3 | .fault => 6#3) ∧
    (statusWord s).getLsbD 3 = s.streamValid ∧
    (statusWord s).getLsbD 4 = s.syncFound ∧
    (statusWord s).getLsbD 5 = s.syncNotFound ∧
    (statusWord s).getLsbD 6 = s.truncated ∧
    (statusWord s).getLsbD 7 = decide (s.ringCount.val = 33) ∧
    (statusWord s).getLsbD 8 = s.cmdRefused ∧
    (statusWord s).getLsbD 9 =
      decide (s.phase = .scan ∨ s.phase = .warmup ∨ s.phase = .main ∨ s.phase = .legacy) ∧
    (statusWord s).getLsbD 10 = decide (s.phase = .done) ∧
    (statusWord s).getLsbD 11 = false ∧
    (statusWord s).extractLsb' 12 4 = s.err ∧
    (statusWord s).extractLsb' 16 16 = 0#16 ∧
    exec (.rdreg 0x04) s = .next { s with rdData := statusWord s } ∧
    ∀ v, exec (.wrreg 0x04 v) s = .next s

/-! ### Who writes what -/

/-- R22, R23, R51: no well-formed instruction but LOAD and RESET changes any byte of the
stream, its length or `stream_valid`. -/
def Obligations.OnlyLoadAndResetWriteTheStream : Prop :=
  ∀ (i : Instr) (s t : State), exec i s = .next t →
    i.wf = true → (∀ x, i ≠ .load x) → (∀ x, i ≠ .reset x) →
    (∀ a, t.stream.read a = s.stream.read a) ∧ t.n = s.n ∧ t.streamValid = s.streamValid

/-- R27 to R30, R47: no well-formed instruction but DATA, RING_INIT and RESET changes a sample cell, a ring
cursor or the frame count. -/
def Obligations.OnlyDataWritesTheRing : Prop :=
  ∀ (i : Instr) (s t : State), exec i s = .next t →
    i.wf = true → (∀ w next, i ≠ .data w next) → (∀ x, i ≠ .ringInit x) → (∀ x, i ≠ .reset x) →
    (∀ slot k, ringCell t slot k = ringCell s slot k) ∧
    t.ringI = s.ringI ∧ t.ringCi = s.ringCi ∧ t.ringCount = s.ringCount

/-- R31: each flag and result register is written by the instructions the table names and by no other; so
are the host's registers (R32, R35) and the hidden state (R37). -/
def Obligations.FlagsAreWrittenByTheirWriters : Prop :=
  ∀ (i : Instr) (s t : State), exec i s = .next t → i.wf = true → (∀ x, i ≠ .reset x) →
    (t.syncFound ≠ s.syncFound ∨ t.syncNotFound ≠ s.syncNotFound →
      i = .scanEnd ∨ (∃ a b c, i = .sync3 a b c) ∨ (∃ x, i = .load x) ∨ (∃ x, i = .findSync x) ∨ ∃ m b, i = .run m b) ∧
    (t.truncated ≠ s.truncated → i = .streamEnd ∨ (∃ m b, i = .run m b) ∨ ∃ x, i = .ringInit x) ∧
    (t.syncIndex ≠ s.syncIndex → i = .scanEnd ∨ ∃ a b c, i = .sync3 a b c) ∧
    (t.err ≠ s.err → (∃ x, i = .load x) ∨ ∃ hi tag b2 v0, i = .lRec hi tag b2 v0) ∧
    (t.cmdRefused ≠ s.cmdRefused → ∃ v, i = decodeCommand v) ∧
    (t.start ≠ s.start ∨ t.byteLen ≠ s.byteLen ∨ t.ringSeq ≠ s.ringSeq → ∃ n v, i = .wrreg n v) ∧
    (t.mode ≠ s.mode → ∃ m b, i = .run m b) ∧
    (t.afterScan ≠ s.afterScan → (∃ x, i = .findSync x) ∨ ∃ m b, i = .run m b)

/-- R38: only RESET and RING_INIT remove an event; every other well-formed instruction keeps the trace and
adds to its end. -/
def Obligations.TraceOnlyGrows : Prop :=
  ∀ (i : Instr) (s t : State), exec i s = .next t →
    i.wf = true → (∀ x, i ≠ .ringInit x) → (∀ x, i ≠ .reset x) →
    ∃ events, t.trace = s.trace ++ events

/-- R24, R25, R39 f: the cursor never moves back during a pass, and never wraps: whatever the turn, as long as the pass
is not abandoned by a reset, it ends at or after where it was and at most at `N + 3`, or stays at a `START` beyond. -/
def Obligations.CursorNeverMovesBack : Prop :=
  ∀ s t : State, s.isBusy = true → step s = .next t → t.phase ≠ .idle →
    s.pos.toNat ≤ t.pos.toNat ∧ t.pos.toNat ≤ max s.pos.toNat (s.len + 3)

/-! ### The phase -/

/-- R26, R146: what each instruction does to the phase, the whole transition relation (the decode conditions, which say
in what phase a stream instruction can occur, are `BlockTurnRunsTheCursorWords`). -/
def Obligations.PhaseTransitions : Prop :=
  ∀ (i : Instr) (s t : State), exec i s = .next t →
    match i with
    | .scanEnd | .sync3 _ _ _ => t.phase = (match s.afterScan with
        | .done => .done
        | .warmup => if s.ringCount.val = 33 then .main else .warmup)
    | .scanSkip _ _ _ | .fillPair => t.phase = s.phase
    | .data _ _ => t.phase = (if s.phase = .warmup ∧ s.ringCi.val = 15 ∧ t.ringCount.val = 33 then .main else s.phase)
    | .streamEnd | .lEnd => t.phase = .done
    | .lRec _ tag _ _ => t.phase = (if chLen s tag.toFin = s.legacyCap ∨ chLen s tag.toFin + 1 = s.legacyCap
        then .fault else s.phase)
    | .nop _ | .cmdReserved _ | .rdreg _ => t.phase = s.phase
    | .load _ | .ringInit _ => t.phase = (if s.phase = .idle ∨ s.phase = .done then .idle else s.phase)
    | .findSync _ => t.phase =
        (if (s.phase = .idle ∨ s.phase = .done) ∧ s.streamValid = true then .scan else s.phase)
    | .run m b => t.phase = (if (s.phase = .idle ∨ s.phase = .done) ∧ s.streamValid = true then
        (match m, b with
          | .roundRobin, true => .scan
          | .roundRobin, false => .main
          | .legacy, _ => .legacy) else s.phase)
    | .reset _ => t.phase = .idle
    | .wrreg n _ => n ≠ 0 → t.phase = s.phase

/-- R26, R105, R123: only a reset leaves phase FAULT, by the command or by the reset input; whatever else the turn
brings, the block stays there, and its stream, ring, cursor, code and trace with it. -/
def Obligations.FaultIsLeftByResetOnly : Prop :=
  ∀ s t : State, s.phase = .fault → step s = .next t →
    (∃ v rest, s.inbox = .write 0 v :: rest ∧ commandOp v = .reset) ∨ (∃ rest, s.inbox = .resetInput :: rest) ∨
    (t.phase = .fault ∧ t.pos = s.pos ∧ t.err = s.err ∧ t.trace = s.trace ∧ t.ring = s.ring ∧ t.chbuf = s.chbuf ∧
      t.n = s.n ∧ t.streamValid = s.streamValid)

/-! ### Reset and the invariant -/

/-- R40, R41, R130: the machine right after reset has every piece of the block's state at the value the spec states, and
no word of the stream memory can be read. The last clause, that a step from reset changes nothing, rests on the model's
choice that the schedule is empty at reset and that an empty schedule is the block's turn (log entries 5 and 7). -/
def Obligations.ResetState : Prop :=
  State.reset.AtReset ∧ step State.reset = .next State.reset

/-- The invariant holds at reset. -/
def Obligations.InvariantAtReset : Prop := Inv State.reset

/-- R39 and the rules the parts of `Inv` name: every step keeps the invariant, whatever the turn. -/
def Obligations.InvariantKeptByEveryStep : Prop :=
  ∀ s t : State, Inv s → step s = .next t → Inv t

/-- R46, R56, R147: a state of the invariant never stops: whatever the turn, the step answers a next state. So no step
reads the stream out of bounds or without one, and decode is total where the machine runs. -/
def Obligations.InvariantStatesNeverStop : Prop :=
  ∀ s : State, Inv s → ∃ t, step s = .next t

/-- R84: every pass ends. A busy block left alone is no longer busy after at most `max(N − pos, 0) + 2` steps. -/
def Obligations.EveryPassEnds : Prop :=
  ∀ s : State, s.streamValid = true → s.isBusy = true → s.inbox = [] →
    ∃ (k : Nat) (t : State), k ≤ (s.len - s.pos.toNat) + 2 ∧ RunsTo k s t ∧ t.isBusy = false

/-- R137: with the initial sync on a fresh ring only the 34th frame and later are valid. In phase WARMUP, entered with
as many frames in the trace as the ring counts, a frame is marked valid only when 33 were complete before it. -/
def Obligations.WarmupFramesAreNotValid : Prop :=
  ∀ (w next : Word) (s t : State), Inv s → s.phase = .warmup → exec (.data w next) s = .next t →
    (∀ e ∈ framesOf s.trace, e.2.1 = false) →
    (∀ e ∈ framesOf t.trace, e.2.1 = false) ∧ (t.phase = .main ↔ t.frames = 33) ∧ t.frames ≤ 33
end

