-- ==== Sys2Proof/Laws/State.lean ====
section
/-! SUPPORT. What each shared update does to each field of the state: one lemma per field per update, so that no later
proof unfolds a record update. -/

namespace Sys2Proof.Machine

variable (s : State)

/-! ### State.draw -/

@[simp] theorem State.draw_stream : (s.draw).stream = s.stream := rfl
@[simp] theorem State.draw_n : (s.draw).n = s.n := rfl
@[simp] theorem State.draw_streamValid : (s.draw).streamValid = s.streamValid := rfl
@[simp] theorem State.draw_pos : (s.draw).pos = s.pos := rfl
@[simp] theorem State.draw_phase : (s.draw).phase = s.phase := rfl
@[simp] theorem State.draw_afterScan : (s.draw).afterScan = s.afterScan := rfl
@[simp] theorem State.draw_mode : (s.draw).mode = s.mode := rfl
@[simp] theorem State.draw_ring : (s.draw).ring = s.ring := rfl
@[simp] theorem State.draw_ringI : (s.draw).ringI = s.ringI := rfl
@[simp] theorem State.draw_ringCi : (s.draw).ringCi = s.ringCi := rfl
@[simp] theorem State.draw_ringCount : (s.draw).ringCount = s.ringCount := rfl
@[simp] theorem State.draw_syncFound : (s.draw).syncFound = s.syncFound := rfl
@[simp] theorem State.draw_syncNotFound : (s.draw).syncNotFound = s.syncNotFound := rfl
@[simp] theorem State.draw_truncated : (s.draw).truncated = s.truncated := rfl
@[simp] theorem State.draw_cmdRefused : (s.draw).cmdRefused = s.cmdRefused := rfl
@[simp] theorem State.draw_err : (s.draw).err = s.err := rfl
@[simp] theorem State.draw_syncIndex : (s.draw).syncIndex = s.syncIndex := rfl
@[simp] theorem State.draw_start : (s.draw).start = s.start := rfl
@[simp] theorem State.draw_byteLen : (s.draw).byteLen = s.byteLen := rfl
@[simp] theorem State.draw_ringSeq : (s.draw).ringSeq = s.ringSeq := rfl
@[simp] theorem State.draw_chbuf : (s.draw).chbuf = s.chbuf := rfl
@[simp] theorem State.draw_trace : (s.draw).trace = s.trace := rfl
@[simp] theorem State.draw_hostBuf : (s.draw).hostBuf = s.hostBuf := rfl
@[simp] theorem State.draw_inbox : (s.draw).inbox = s.inbox := rfl
@[simp] theorem State.draw_rdData : (s.draw).rdData = s.rdData := rfl
@[simp] theorem State.draw_draws : (s.draw).draws = s.draws + 1 := rfl
@[simp] theorem State.draw_legacyCap : (s.draw).legacyCap = s.legacyCap := rfl

/-! ### advance -/

@[simp] theorem advance_stream (k : Nat) : (advance k s).stream = s.stream := rfl
@[simp] theorem advance_n (k : Nat) : (advance k s).n = s.n := rfl
@[simp] theorem advance_streamValid (k : Nat) : (advance k s).streamValid = s.streamValid := rfl
@[simp] theorem advance_pos (k : Nat) : (advance k s).pos = s.pos + BitVec.ofNat 32 k := rfl
@[simp] theorem advance_phase (k : Nat) : (advance k s).phase = s.phase := rfl
@[simp] theorem advance_afterScan (k : Nat) : (advance k s).afterScan = s.afterScan := rfl
@[simp] theorem advance_mode (k : Nat) : (advance k s).mode = s.mode := rfl
@[simp] theorem advance_ring (k : Nat) : (advance k s).ring = s.ring := rfl
@[simp] theorem advance_ringI (k : Nat) : (advance k s).ringI = s.ringI := rfl
@[simp] theorem advance_ringCi (k : Nat) : (advance k s).ringCi = s.ringCi := rfl
@[simp] theorem advance_ringCount (k : Nat) : (advance k s).ringCount = s.ringCount := rfl
@[simp] theorem advance_syncFound (k : Nat) : (advance k s).syncFound = s.syncFound := rfl
@[simp] theorem advance_syncNotFound (k : Nat) : (advance k s).syncNotFound = s.syncNotFound := rfl
@[simp] theorem advance_truncated (k : Nat) : (advance k s).truncated = s.truncated := rfl
@[simp] theorem advance_cmdRefused (k : Nat) : (advance k s).cmdRefused = s.cmdRefused := rfl
@[simp] theorem advance_err (k : Nat) : (advance k s).err = s.err := rfl
@[simp] theorem advance_syncIndex (k : Nat) : (advance k s).syncIndex = s.syncIndex := rfl
@[simp] theorem advance_start (k : Nat) : (advance k s).start = s.start := rfl
@[simp] theorem advance_byteLen (k : Nat) : (advance k s).byteLen = s.byteLen := rfl
@[simp] theorem advance_ringSeq (k : Nat) : (advance k s).ringSeq = s.ringSeq := rfl
@[simp] theorem advance_chbuf (k : Nat) : (advance k s).chbuf = s.chbuf := rfl
@[simp] theorem advance_trace (k : Nat) : (advance k s).trace = s.trace := rfl
@[simp] theorem advance_hostBuf (k : Nat) : (advance k s).hostBuf = s.hostBuf := rfl
@[simp] theorem advance_inbox (k : Nat) : (advance k s).inbox = s.inbox := rfl
@[simp] theorem advance_rdData (k : Nat) : (advance k s).rdData = s.rdData := rfl
@[simp] theorem advance_draws (k : Nat) : (advance k s).draws = s.draws := rfl
@[simp] theorem advance_legacyCap (k : Nat) : (advance k s).legacyCap = s.legacyCap := rfl

/-! ### emit -/

@[simp] theorem emit_stream (e : Event) : (emit e s).stream = s.stream := rfl
@[simp] theorem emit_n (e : Event) : (emit e s).n = s.n := rfl
@[simp] theorem emit_streamValid (e : Event) : (emit e s).streamValid = s.streamValid := rfl
@[simp] theorem emit_pos (e : Event) : (emit e s).pos = s.pos := rfl
@[simp] theorem emit_phase (e : Event) : (emit e s).phase = s.phase := rfl
@[simp] theorem emit_afterScan (e : Event) : (emit e s).afterScan = s.afterScan := rfl
@[simp] theorem emit_mode (e : Event) : (emit e s).mode = s.mode := rfl
@[simp] theorem emit_ring (e : Event) : (emit e s).ring = s.ring := rfl
@[simp] theorem emit_ringI (e : Event) : (emit e s).ringI = s.ringI := rfl
@[simp] theorem emit_ringCi (e : Event) : (emit e s).ringCi = s.ringCi := rfl
@[simp] theorem emit_ringCount (e : Event) : (emit e s).ringCount = s.ringCount := rfl
@[simp] theorem emit_syncFound (e : Event) : (emit e s).syncFound = s.syncFound := rfl
@[simp] theorem emit_syncNotFound (e : Event) : (emit e s).syncNotFound = s.syncNotFound := rfl
@[simp] theorem emit_truncated (e : Event) : (emit e s).truncated = s.truncated := rfl
@[simp] theorem emit_cmdRefused (e : Event) : (emit e s).cmdRefused = s.cmdRefused := rfl
@[simp] theorem emit_err (e : Event) : (emit e s).err = s.err := rfl
@[simp] theorem emit_syncIndex (e : Event) : (emit e s).syncIndex = s.syncIndex := rfl
@[simp] theorem emit_start (e : Event) : (emit e s).start = s.start := rfl
@[simp] theorem emit_byteLen (e : Event) : (emit e s).byteLen = s.byteLen := rfl
@[simp] theorem emit_ringSeq (e : Event) : (emit e s).ringSeq = s.ringSeq := rfl
@[simp] theorem emit_chbuf (e : Event) : (emit e s).chbuf = s.chbuf := rfl
@[simp] theorem emit_trace (e : Event) : (emit e s).trace = s.trace ++ [e] := rfl
@[simp] theorem emit_hostBuf (e : Event) : (emit e s).hostBuf = s.hostBuf := rfl
@[simp] theorem emit_inbox (e : Event) : (emit e s).inbox = s.inbox := rfl
@[simp] theorem emit_rdData (e : Event) : (emit e s).rdData = s.rdData := rfl
@[simp] theorem emit_draws (e : Event) : (emit e s).draws = s.draws := rfl
@[simp] theorem emit_legacyCap (e : Event) : (emit e s).legacyCap = s.legacyCap := rfl

/-! ### dropStream -/

@[simp] theorem dropStream_stream : (dropStream s).stream = [] := rfl
@[simp] theorem dropStream_n : (dropStream s).n = 0#24 := rfl
@[simp] theorem dropStream_streamValid : (dropStream s).streamValid = false := rfl
@[simp] theorem dropStream_pos : (dropStream s).pos = s.pos := rfl
@[simp] theorem dropStream_phase : (dropStream s).phase = s.phase := rfl
@[simp] theorem dropStream_afterScan : (dropStream s).afterScan = s.afterScan := rfl
@[simp] theorem dropStream_mode : (dropStream s).mode = s.mode := rfl
@[simp] theorem dropStream_ring : (dropStream s).ring = s.ring := rfl
@[simp] theorem dropStream_ringI : (dropStream s).ringI = s.ringI := rfl
@[simp] theorem dropStream_ringCi : (dropStream s).ringCi = s.ringCi := rfl
@[simp] theorem dropStream_ringCount : (dropStream s).ringCount = s.ringCount := rfl
@[simp] theorem dropStream_syncFound : (dropStream s).syncFound = s.syncFound := rfl
@[simp] theorem dropStream_syncNotFound : (dropStream s).syncNotFound = s.syncNotFound := rfl
@[simp] theorem dropStream_truncated : (dropStream s).truncated = s.truncated := rfl
@[simp] theorem dropStream_cmdRefused : (dropStream s).cmdRefused = s.cmdRefused := rfl
@[simp] theorem dropStream_err : (dropStream s).err = s.err := rfl
@[simp] theorem dropStream_syncIndex : (dropStream s).syncIndex = s.syncIndex := rfl
@[simp] theorem dropStream_start : (dropStream s).start = s.start := rfl
@[simp] theorem dropStream_byteLen : (dropStream s).byteLen = s.byteLen := rfl
@[simp] theorem dropStream_ringSeq : (dropStream s).ringSeq = s.ringSeq := rfl
@[simp] theorem dropStream_chbuf : (dropStream s).chbuf = s.chbuf := rfl
@[simp] theorem dropStream_trace : (dropStream s).trace = s.trace := rfl
@[simp] theorem dropStream_hostBuf : (dropStream s).hostBuf = s.hostBuf := rfl
@[simp] theorem dropStream_inbox : (dropStream s).inbox = s.inbox := rfl
@[simp] theorem dropStream_rdData : (dropStream s).rdData = s.rdData := rfl
@[simp] theorem dropStream_draws : (dropStream s).draws = s.draws := rfl
@[simp] theorem dropStream_legacyCap : (dropStream s).legacyCap = s.legacyCap := rfl

/-! ### storeSample -/

@[simp] theorem storeSample_stream (w : Word) : (storeSample w s).stream = s.stream := rfl
@[simp] theorem storeSample_n (w : Word) : (storeSample w s).n = s.n := rfl
@[simp] theorem storeSample_streamValid (w : Word) : (storeSample w s).streamValid = s.streamValid := rfl
@[simp] theorem storeSample_pos (w : Word) : (storeSample w s).pos = s.pos := rfl
@[simp] theorem storeSample_phase (w : Word) : (storeSample w s).phase = s.phase := rfl
@[simp] theorem storeSample_afterScan (w : Word) : (storeSample w s).afterScan = s.afterScan := rfl
@[simp] theorem storeSample_mode (w : Word) : (storeSample w s).mode = s.mode := rfl
@[simp] theorem storeSample_ring (w : Word) : (storeSample w s).ring = s.ring.set s.ringI ((s.ring[s.ringI]).set s.ringCi (some w)) := rfl
@[simp] theorem storeSample_ringI (w : Word) : (storeSample w s).ringI = s.ringI := rfl
@[simp] theorem storeSample_ringCi (w : Word) : (storeSample w s).ringCi = s.ringCi := rfl
@[simp] theorem storeSample_ringCount (w : Word) : (storeSample w s).ringCount = s.ringCount := rfl
@[simp] theorem storeSample_syncFound (w : Word) : (storeSample w s).syncFound = s.syncFound := rfl
@[simp] theorem storeSample_syncNotFound (w : Word) : (storeSample w s).syncNotFound = s.syncNotFound := rfl
@[simp] theorem storeSample_truncated (w : Word) : (storeSample w s).truncated = s.truncated := rfl
@[simp] theorem storeSample_cmdRefused (w : Word) : (storeSample w s).cmdRefused = s.cmdRefused := rfl
@[simp] theorem storeSample_err (w : Word) : (storeSample w s).err = s.err := rfl
@[simp] theorem storeSample_syncIndex (w : Word) : (storeSample w s).syncIndex = s.syncIndex := rfl
@[simp] theorem storeSample_start (w : Word) : (storeSample w s).start = s.start := rfl
@[simp] theorem storeSample_byteLen (w : Word) : (storeSample w s).byteLen = s.byteLen := rfl
@[simp] theorem storeSample_ringSeq (w : Word) : (storeSample w s).ringSeq = s.ringSeq := rfl
@[simp] theorem storeSample_chbuf (w : Word) : (storeSample w s).chbuf = s.chbuf := rfl
@[simp] theorem storeSample_trace (w : Word) : (storeSample w s).trace = s.trace := rfl
@[simp] theorem storeSample_hostBuf (w : Word) : (storeSample w s).hostBuf = s.hostBuf := rfl
@[simp] theorem storeSample_inbox (w : Word) : (storeSample w s).inbox = s.inbox := rfl
@[simp] theorem storeSample_rdData (w : Word) : (storeSample w s).rdData = s.rdData := rfl
@[simp] theorem storeSample_draws (w : Word) : (storeSample w s).draws = s.draws := rfl
@[simp] theorem storeSample_legacyCap (w : Word) : (storeSample w s).legacyCap = s.legacyCap := rfl

/-! ### freshRing -/

@[simp] theorem freshRing_stream : (freshRing s).stream = s.stream := rfl
@[simp] theorem freshRing_n : (freshRing s).n = s.n := rfl
@[simp] theorem freshRing_streamValid : (freshRing s).streamValid = s.streamValid := rfl
@[simp] theorem freshRing_pos : (freshRing s).pos = s.pos := rfl
@[simp] theorem freshRing_phase : (freshRing s).phase = s.phase := rfl
@[simp] theorem freshRing_afterScan : (freshRing s).afterScan = s.afterScan := rfl
@[simp] theorem freshRing_mode : (freshRing s).mode = s.mode := rfl
@[simp] theorem freshRing_ring : (freshRing s).ring = emptyRing := rfl
@[simp] theorem freshRing_ringI : (freshRing s).ringI = 0 := rfl
@[simp] theorem freshRing_ringCi : (freshRing s).ringCi = 0 := rfl
@[simp] theorem freshRing_ringCount : (freshRing s).ringCount = 0 := rfl
@[simp] theorem freshRing_syncFound : (freshRing s).syncFound = s.syncFound := rfl
@[simp] theorem freshRing_syncNotFound : (freshRing s).syncNotFound = s.syncNotFound := rfl
@[simp] theorem freshRing_truncated : (freshRing s).truncated = s.truncated := rfl
@[simp] theorem freshRing_cmdRefused : (freshRing s).cmdRefused = s.cmdRefused := rfl
@[simp] theorem freshRing_err : (freshRing s).err = s.err := rfl
@[simp] theorem freshRing_syncIndex : (freshRing s).syncIndex = s.syncIndex := rfl
@[simp] theorem freshRing_start : (freshRing s).start = s.start := rfl
@[simp] theorem freshRing_byteLen : (freshRing s).byteLen = s.byteLen := rfl
@[simp] theorem freshRing_ringSeq : (freshRing s).ringSeq = s.ringSeq := rfl
@[simp] theorem freshRing_chbuf : (freshRing s).chbuf = s.chbuf := rfl
@[simp] theorem freshRing_trace : (freshRing s).trace = s.trace := rfl
@[simp] theorem freshRing_hostBuf : (freshRing s).hostBuf = s.hostBuf := rfl
@[simp] theorem freshRing_inbox : (freshRing s).inbox = s.inbox := rfl
@[simp] theorem freshRing_rdData : (freshRing s).rdData = s.rdData := rfl
@[simp] theorem freshRing_draws : (freshRing s).draws = s.draws := rfl
@[simp] theorem freshRing_legacyCap : (freshRing s).legacyCap = s.legacyCap := rfl

/-! ### appendSample -/

@[simp] theorem appendSample_stream (ch : Fin 16) (v : Half) : (appendSample ch v s).stream = s.stream := rfl
@[simp] theorem appendSample_n (ch : Fin 16) (v : Half) : (appendSample ch v s).n = s.n := rfl
@[simp] theorem appendSample_streamValid (ch : Fin 16) (v : Half) : (appendSample ch v s).streamValid = s.streamValid := rfl
@[simp] theorem appendSample_pos (ch : Fin 16) (v : Half) : (appendSample ch v s).pos = s.pos := rfl
@[simp] theorem appendSample_phase (ch : Fin 16) (v : Half) : (appendSample ch v s).phase = s.phase := rfl
@[simp] theorem appendSample_afterScan (ch : Fin 16) (v : Half) : (appendSample ch v s).afterScan = s.afterScan := rfl
@[simp] theorem appendSample_mode (ch : Fin 16) (v : Half) : (appendSample ch v s).mode = s.mode := rfl
@[simp] theorem appendSample_ring (ch : Fin 16) (v : Half) : (appendSample ch v s).ring = s.ring := rfl
@[simp] theorem appendSample_ringI (ch : Fin 16) (v : Half) : (appendSample ch v s).ringI = s.ringI := rfl
@[simp] theorem appendSample_ringCi (ch : Fin 16) (v : Half) : (appendSample ch v s).ringCi = s.ringCi := rfl
@[simp] theorem appendSample_ringCount (ch : Fin 16) (v : Half) : (appendSample ch v s).ringCount = s.ringCount := rfl
@[simp] theorem appendSample_syncFound (ch : Fin 16) (v : Half) : (appendSample ch v s).syncFound = s.syncFound := rfl
@[simp] theorem appendSample_syncNotFound (ch : Fin 16) (v : Half) : (appendSample ch v s).syncNotFound = s.syncNotFound := rfl
@[simp] theorem appendSample_truncated (ch : Fin 16) (v : Half) : (appendSample ch v s).truncated = s.truncated := rfl
@[simp] theorem appendSample_cmdRefused (ch : Fin 16) (v : Half) : (appendSample ch v s).cmdRefused = s.cmdRefused := rfl
@[simp] theorem appendSample_err (ch : Fin 16) (v : Half) : (appendSample ch v s).err = s.err := rfl
@[simp] theorem appendSample_syncIndex (ch : Fin 16) (v : Half) : (appendSample ch v s).syncIndex = s.syncIndex := rfl
@[simp] theorem appendSample_start (ch : Fin 16) (v : Half) : (appendSample ch v s).start = s.start := rfl
@[simp] theorem appendSample_byteLen (ch : Fin 16) (v : Half) : (appendSample ch v s).byteLen = s.byteLen := rfl
@[simp] theorem appendSample_ringSeq (ch : Fin 16) (v : Half) : (appendSample ch v s).ringSeq = s.ringSeq := rfl
@[simp] theorem appendSample_chbuf (ch : Fin 16) (v : Half) : (appendSample ch v s).chbuf = s.chbuf.set ch (s.chbuf[ch] ++ [v]) := rfl
@[simp] theorem appendSample_trace (ch : Fin 16) (v : Half) : (appendSample ch v s).trace = s.trace ++ [.sample16 ch v] := rfl
@[simp] theorem appendSample_hostBuf (ch : Fin 16) (v : Half) : (appendSample ch v s).hostBuf = s.hostBuf := rfl
@[simp] theorem appendSample_inbox (ch : Fin 16) (v : Half) : (appendSample ch v s).inbox = s.inbox := rfl
@[simp] theorem appendSample_rdData (ch : Fin 16) (v : Half) : (appendSample ch v s).rdData = s.rdData := rfl
@[simp] theorem appendSample_draws (ch : Fin 16) (v : Half) : (appendSample ch v s).draws = s.draws := rfl
@[simp] theorem appendSample_legacyCap (ch : Fin 16) (v : Half) : (appendSample ch v s).legacyCap = s.legacyCap := rfl

/-! ### refuse -/

@[simp] theorem refuse_stream : (refuse s).stream = s.stream := rfl
@[simp] theorem refuse_n : (refuse s).n = s.n := rfl
@[simp] theorem refuse_streamValid : (refuse s).streamValid = s.streamValid := rfl
@[simp] theorem refuse_pos : (refuse s).pos = s.pos := rfl
@[simp] theorem refuse_phase : (refuse s).phase = s.phase := rfl
@[simp] theorem refuse_afterScan : (refuse s).afterScan = s.afterScan := rfl
@[simp] theorem refuse_mode : (refuse s).mode = s.mode := rfl
@[simp] theorem refuse_ring : (refuse s).ring = s.ring := rfl
@[simp] theorem refuse_ringI : (refuse s).ringI = s.ringI := rfl
@[simp] theorem refuse_ringCi : (refuse s).ringCi = s.ringCi := rfl
@[simp] theorem refuse_ringCount : (refuse s).ringCount = s.ringCount := rfl
@[simp] theorem refuse_syncFound : (refuse s).syncFound = s.syncFound := rfl
@[simp] theorem refuse_syncNotFound : (refuse s).syncNotFound = s.syncNotFound := rfl
@[simp] theorem refuse_truncated : (refuse s).truncated = s.truncated := rfl
@[simp] theorem refuse_cmdRefused : (refuse s).cmdRefused = true := rfl
@[simp] theorem refuse_err : (refuse s).err = s.err := rfl
@[simp] theorem refuse_syncIndex : (refuse s).syncIndex = s.syncIndex := rfl
@[simp] theorem refuse_start : (refuse s).start = s.start := rfl
@[simp] theorem refuse_byteLen : (refuse s).byteLen = s.byteLen := rfl
@[simp] theorem refuse_ringSeq : (refuse s).ringSeq = s.ringSeq := rfl
@[simp] theorem refuse_chbuf : (refuse s).chbuf = s.chbuf := rfl
@[simp] theorem refuse_trace : (refuse s).trace = s.trace := rfl
@[simp] theorem refuse_hostBuf : (refuse s).hostBuf = s.hostBuf := rfl
@[simp] theorem refuse_inbox : (refuse s).inbox = s.inbox := rfl
@[simp] theorem refuse_rdData : (refuse s).rdData = s.rdData := rfl
@[simp] theorem refuse_draws : (refuse s).draws = s.draws := rfl
@[simp] theorem refuse_legacyCap : (refuse s).legacyCap = s.legacyCap := rfl

/-! ### presentBuffer -/

@[simp] theorem presentBuffer_stream (bs : List Byte) : (presentBuffer bs s).stream = s.stream.keep fun a => s.len ≤ a / 4 || recordKept s.stream bs (a / 4) := rfl
@[simp] theorem presentBuffer_n (bs : List Byte) : (presentBuffer bs s).n = s.n := rfl
@[simp] theorem presentBuffer_streamValid (bs : List Byte) : (presentBuffer bs s).streamValid = s.streamValid := rfl
@[simp] theorem presentBuffer_pos (bs : List Byte) : (presentBuffer bs s).pos = s.pos := rfl
@[simp] theorem presentBuffer_phase (bs : List Byte) : (presentBuffer bs s).phase = s.phase := rfl
@[simp] theorem presentBuffer_afterScan (bs : List Byte) : (presentBuffer bs s).afterScan = s.afterScan := rfl
@[simp] theorem presentBuffer_mode (bs : List Byte) : (presentBuffer bs s).mode = s.mode := rfl
@[simp] theorem presentBuffer_ring (bs : List Byte) : (presentBuffer bs s).ring = s.ring := rfl
@[simp] theorem presentBuffer_ringI (bs : List Byte) : (presentBuffer bs s).ringI = s.ringI := rfl
@[simp] theorem presentBuffer_ringCi (bs : List Byte) : (presentBuffer bs s).ringCi = s.ringCi := rfl
@[simp] theorem presentBuffer_ringCount (bs : List Byte) : (presentBuffer bs s).ringCount = s.ringCount := rfl
@[simp] theorem presentBuffer_syncFound (bs : List Byte) : (presentBuffer bs s).syncFound = s.syncFound := rfl
@[simp] theorem presentBuffer_syncNotFound (bs : List Byte) : (presentBuffer bs s).syncNotFound = s.syncNotFound := rfl
@[simp] theorem presentBuffer_truncated (bs : List Byte) : (presentBuffer bs s).truncated = s.truncated := rfl
@[simp] theorem presentBuffer_cmdRefused (bs : List Byte) : (presentBuffer bs s).cmdRefused = s.cmdRefused := rfl
@[simp] theorem presentBuffer_err (bs : List Byte) : (presentBuffer bs s).err = s.err := rfl
@[simp] theorem presentBuffer_syncIndex (bs : List Byte) : (presentBuffer bs s).syncIndex = s.syncIndex := rfl
@[simp] theorem presentBuffer_start (bs : List Byte) : (presentBuffer bs s).start = s.start := rfl
@[simp] theorem presentBuffer_byteLen (bs : List Byte) : (presentBuffer bs s).byteLen = s.byteLen := rfl
@[simp] theorem presentBuffer_ringSeq (bs : List Byte) : (presentBuffer bs s).ringSeq = s.ringSeq := rfl
@[simp] theorem presentBuffer_chbuf (bs : List Byte) : (presentBuffer bs s).chbuf = s.chbuf := rfl
@[simp] theorem presentBuffer_trace (bs : List Byte) : (presentBuffer bs s).trace = s.trace := rfl
@[simp] theorem presentBuffer_hostBuf (bs : List Byte) : (presentBuffer bs s).hostBuf = bs := rfl
@[simp] theorem presentBuffer_inbox (bs : List Byte) : (presentBuffer bs s).inbox = s.inbox := rfl
@[simp] theorem presentBuffer_rdData (bs : List Byte) : (presentBuffer bs s).rdData = s.rdData := rfl
@[simp] theorem presentBuffer_draws (bs : List Byte) : (presentBuffer bs s).draws = s.draws := rfl
@[simp] theorem presentBuffer_legacyCap (bs : List Byte) : (presentBuffer bs s).legacyCap = s.legacyCap := rfl

end Sys2Proof.Machine
end

