-- ==== Sys2Proof/Laws/Memory.lean ====
section
/-! SUPPORT. The laws of the stream memory: what a read finds after each operation, and that every operation keeps the
canonical form. -/

namespace Sys2Proof.Machine

/-! ### Reads -/

@[simp] theorem Memory.read_nil (a : Nat) : Memory.read [] a = none := rfl

theorem Memory.read_append (m m' : Memory) (a : Nat) :
    Memory.read (m ++ m') a = ((Memory.read m a).or (Memory.read m' a)) := by
  induction m with
  | nil => simp
  | cons c m ih =>
    obtain ⟨k, b⟩ := c
    by_cases h : k = a <;> simp [Memory.read, h, ih]

/-- Consecutive bytes read back, and nothing is listed outside them. -/
theorem Memory.read_ofBytes (base : Nat) (bs : List Byte) (a : Nat) :
    (Memory.ofBytes base bs).read a = if base ≤ a then bs[a - base]? else none := by
  induction bs generalizing base with
  | nil => simp [Memory.ofBytes]
  | cons b bs ih =>
    rcases Nat.lt_trichotomy base a with h | h | h
    · obtain ⟨d, rfl⟩ : ∃ d, a = base + 1 + d := ⟨a - (base + 1), by omega⟩
      have e : base + 1 + d - base = d + 1 := by omega
      simp [Memory.ofBytes, Memory.read, ih, e, show base ≤ base + 1 + d by omega]
      omega
    · subst h
      simp [Memory.ofBytes, Memory.read]
    · simp [Memory.ofBytes, Memory.read, ih, show ¬ base = a by omega, show ¬ base ≤ a by omega,
        show ¬ base + 1 ≤ a by omega]

/-- What is kept reads as before, what is not is no longer listed. -/
theorem Memory.read_keep (m : Memory) (p : Nat → Bool) (a : Nat) :
    (m.keep p).read a = if p a then m.read a else none := by
  unfold Memory.keep
  induction m with
  | nil => simp
  | cons c m ih =>
    obtain ⟨k, b⟩ := c
    by_cases hk : p k <;> by_cases h : k = a
    · subst h; simp [Memory.read, hk]
    · simp [Memory.read, hk, h, ih]
    · subst h; simp [hk, ih]
    · simp [Memory.read, hk, h, ih]

/-- The stream an accepted load builds: the host's bytes below `4·len`, the four zero bytes of the sentinel, nothing
above (R63). -/
theorem Memory.read_ofStream (bytes : List Byte) (len a : Nat) :
    (Memory.ofStream bytes len).read a =
      if a < 4 * len then bytes[a]? else if a < 4 * len + 4 then some 0#8 else none := by
  have hs : bytesOfWord Config.sentinel = [0#8, 0#8, 0#8, 0#8] := by decide
  simp only [Memory.ofStream, Memory.read_append, Memory.read_ofBytes, hs, Nat.zero_le, if_true, Nat.sub_zero]
  by_cases h : a < 4 * len
  · simp [h, show ¬ 4 * len ≤ a by omega]
  · obtain ⟨d, rfl⟩ : ∃ d, a = 4 * len + d := ⟨a - 4 * len, by omega⟩
    rcases d with _ | _ | _ | _ | d <;> simp

/-! ### The canonical form -/

theorem Memory.ofBytes_bounds (base : Nat) (bs : List Byte) :
    ∀ c ∈ Memory.ofBytes base bs, base ≤ c.1 ∧ c.1 < base + bs.length := by
  induction bs generalizing base with
  | nil => simp [Memory.ofBytes]
  | cons b bs ih =>
    intro c hc
    rcases List.mem_cons.1 hc with rfl | hc
    · simp
    · have := ih (base + 1) c hc
      simp only [List.length_cons]
      omega

theorem Memory.ofBytes_wf (base : Nat) (bs : List Byte) : (Memory.ofBytes base bs).wf := by
  induction bs generalizing base with
  | nil => exact List.Pairwise.nil
  | cons b bs ih =>
    refine List.Pairwise.cons (fun c hc => ?_) (ih (base + 1))
    have := Memory.ofBytes_bounds (base + 1) bs c hc
    simp only
    omega

theorem Memory.keep_wf {m : Memory} (p : Nat → Bool) (h : m.wf) : (m.keep p).wf := List.Pairwise.filter _ h

theorem Memory.ofStream_wf (bytes : List Byte) (len : Nat) : (Memory.ofStream bytes len).wf := by
  refine List.pairwise_append.2 ⟨Memory.ofBytes_wf _ _, Memory.ofBytes_wf _ _, fun a ha b hb => ?_⟩
  have h1 := Memory.ofBytes_bounds _ _ a ha
  have h2 := Memory.ofBytes_bounds _ _ b hb
  have h3 : (bytes.take (4 * len)).length ≤ 4 * len := List.length_take_le _ _
  omega

theorem Memory.ofStream_bound (bytes : List Byte) (len : Nat) :
    ∀ c ∈ Memory.ofStream bytes len, c.1 < 4 * len + 4 := by
  intro c hc
  have h3 : (bytes.take (4 * len)).length ≤ 4 * len := List.length_take_le _ _
  rcases List.mem_append.1 hc with hc | hc
  · have := Memory.ofBytes_bounds _ _ c hc; omega
  · have := Memory.ofBytes_bounds _ _ c hc; simpa [bytesOfWord] using this.2

theorem Memory.keep_subset {m : Memory} {p : Nat → Bool} {c : Host.Cell} (h : c ∈ m.keep p) : c ∈ m :=
  (List.mem_filter.1 h).1

theorem reset_stream_wf : State.reset.stream.wf := List.Pairwise.nil

theorem presentBuffer_wf (bytes : List Byte) {s : State} (h : s.stream.wf) : (presentBuffer bytes s).stream.wf := by
  rw [presentBuffer_stream]
  exact Memory.keep_wf _ h

theorem dropStream_wf (s : State) : (dropStream s).stream.wf := List.Pairwise.nil

theorem resetBlock_wf (s : State) : (resetBlock s).stream.wf := List.Pairwise.nil

theorem placeStream_wf (ph : Phase) (ws : List Word) (s : State) : (placeStream ph ws s).stream.wf :=
  Memory.ofStream_wf _ _

/-! ### Words -/

/-- A word all of whose bytes are listed is the same whatever the free value. -/
theorem wordAt_of_listed {m : Memory} {k : Nat} (h : wordListed m k = true) (f f' : Word) :
    wordAt m k f = wordAt m k f' := by
  have hb : ∀ j, j < 4 → byteOr m k f j = byteOr m k f' j := by
    intro j hj
    have := List.all_eq_true.1 h j (List.mem_range.2 hj)
    obtain ⟨b, hb⟩ := Option.isSome_iff_exists.1 this
    simp [byteOr, hb]
  simp [wordAt, hb]

end Sys2Proof.Machine
end

