-- ==== Sys2Proof/Laws/Ops.lean ====
section
/-! SUPPORT. For each shared operation one lemma that says once everything it can do. -/

namespace Sys2Proof.Machine

/-! ### Stream reads -/

/-- A read of a fixed word returns it and changes nothing (R41). -/
theorem readWord_of_listed {s : State} {k : Nat} (hv : s.streamValid = true) (hk : k ≤ s.len)
    (hl : wordListed s.stream k = true) : readWord k s = .ok (s.word k, s) := by
  simp [readWord, hv, Nat.not_lt.2 hk, hl, State.word, wordAt_of_listed hl _ 0#32]

/-- Whatever a read in range returns, it changes nothing but the count of draws (R41). -/
theorem readWord_in_range {s : State} {k : Nat} (hv : s.streamValid = true) (hk : k ≤ s.len) :
    ∃ w d, readWord k s = .ok (w, { s with draws := d }) := by
  refine ⟨wordAt s.stream k (Config.any32 s.draws), if wordListed s.stream k then s.draws else s.draws + 1, ?_⟩
  unfold readWord
  rw [if_neg (by simp [hv]), if_neg (Nat.not_lt.2 hk)]
  cases h : wordListed s.stream k <;> rfl

/-- Reads in range answer: so many words, and the state but for the count of draws (R46). -/
theorem readWords_in_range {s : State} {count k : Nat} (hv : s.streamValid = true) (hk : k + count ≤ s.len + 1) :
    ∃ ws d, readWords count k s = .ok (ws, { s with draws := d }) ∧ ws.length = count := by
  induction count generalizing k s with
  | zero => exact ⟨[], s.draws, rfl, rfl⟩
  | succ count ih =>
    obtain ⟨w, d, hw⟩ := readWord_in_range (s := s) (k := k) hv (by omega)
    obtain ⟨ws, d', hws, hl⟩ := ih (s := { s with draws := d }) (k := k + 1) hv
      (by simpa [State.len] using (show k + 1 + count ≤ s.len + 1 by omega))
    exact ⟨w :: ws, d', by simp [readWords, hw, hws], by simp [hl]⟩

/-- A stream read that answers changes nothing but the count of draws, and needs a valid stream and an index in it. -/
theorem readWord_ok {s s1 : State} {k : Nat} {w : Word} (h : readWord k s = .ok (w, s1)) :
    s.streamValid = true ∧ k ≤ s.len ∧ s1 = { s with draws := s1.draws } := by
  unfold readWord at h
  split at h
  · cases h
  · split at h
    · cases h
    · rename_i hv hk
      injection h with h
      injection h with _ h
      refine ⟨by simpa using hv, by omega, ?_⟩
      subst h
      split <;> simp [State.draw]

theorem readWords_ok {s s1 : State} {count k : Nat} {ws : List Word} (h : readWords count k s = .ok (ws, s1)) :
    s1 = { s with draws := s1.draws } ∧ ws.length = count := by
  induction count generalizing k s ws with
  | zero =>
    injection h with h
    injection h with h1 h2
    subst h1 h2
    exact ⟨rfl, rfl⟩
  | succ count ih =>
    simp only [readWords] at h
    split at h
    · cases h
    · rename_i w s2 hw
      split at h
      · cases h
      · rename_i ws' s3 hws
        injection h with h
        injection h with h1 h2
        subst h1 h2
        have h3 := (readWord_ok hw).2.2
        have h4 := ih hws
        refine ⟨?_, by simp [h4.2]⟩
        rw [h3] at h4
        exact h4.1

/-- Two fixed words. -/
theorem readWords_two {s : State} {k : Nat} (hv : s.streamValid = true) (hk : k + 1 ≤ s.len)
    (h0 : wordListed s.stream k = true) (h1 : wordListed s.stream (k + 1) = true) :
    readWords 2 k s = .ok ([s.word k, s.word (k + 1)], s) := by
  simp [readWords, readWord_of_listed hv (show k ≤ s.len by omega) h0, readWord_of_listed hv hk h1]

/-- Three fixed words. -/
theorem readWords_three {s : State} {k : Nat} (hv : s.streamValid = true) (hk : k + 2 ≤ s.len)
    (h0 : wordListed s.stream k = true) (h1 : wordListed s.stream (k + 1) = true)
    (h2 : wordListed s.stream (k + 2) = true) :
    readWords 3 k s = .ok ([s.word k, s.word (k + 1), s.word (k + 2)], s) := by
  have h2' : wordListed s.stream (k + 1 + 1) = true := h2
  simp [readWords, readWord_of_listed hv (show k ≤ s.len by omega) h0,
    readWord_of_listed hv (show k + 1 ≤ s.len by omega) h1, readWord_of_listed hv (show k + 1 + 1 ≤ s.len from hk) h2']

/-! ### The phase -/

/-- The end of the warm-up changes the phase only (R75). -/
theorem endWarmup_eq (s : State) :
    endWarmup s = { s with phase := if s.phase = .warmup ∧ s.ringCount.val = 33 then .main else s.phase } := by
  unfold endWarmup
  split <;> simp_all

/-- The end of a scan changes the phase only (R67, R69, R75). -/
theorem enterAfterScan_eq (s : State) :
    enterAfterScan s = { s with phase := match s.afterScan with
      | .done => .done
      | .warmup => if s.ringCount.val = 33 then .main else .warmup } := by
  cases h : s.afterScan <;> simp [enterAfterScan, endWarmup_eq, AfterScan.phase, h]

/-! ### The ring -/

/-- A store writes the one cell at the cursors (R47, R78). -/
theorem ringCell_storeSample (w : Word) (s : State) (slot : Fin 33) (k : Fin 16) :
    ringCell (storeSample w s) slot k = if slot = s.ringI ∧ k = s.ringCi then some w else ringCell s slot k := by
  have hv : ∀ (a b : Fin 33), (a.val = b.val) = (b = a) := fun a b => by simp [Fin.ext_iff, eq_comm]
  have hv' : ∀ (a b : Fin 16), (a.val = b.val) = (b = a) := fun a b => by simp [Fin.ext_iff, eq_comm]
  simp only [ringCell, storeSample_ring, Fin.getElem_fin, Vector.getElem_set, hv]
  by_cases h : slot = s.ringI
  · subst h
    by_cases h' : k = s.ringCi
    · simp [h']
    · simp [h', hv']
  · simp [h]

/-- A fresh ring holds nothing (R86). -/
@[simp] theorem emptyRing_get (slot : Fin 33) (k : Fin 16) : (emptyRing[slot])[k] = none := by
  simp [emptyRing]

@[simp] theorem emptyChannels_get (ch : Fin 16) : emptyChannels[ch] = [] := by
  simp [emptyChannels]

/-- The saturating count (R30). -/
theorem countUp_val (c : Fin 34) : (countUp c).val = min (c.val + 1) 33 := by
  unfold countUp
  split
  · simp only; omega
  · have : c.val = 33 := by omega
    simp [this]

/-- A completed frame: the event, the cursors, the count and the phase, nothing else (R78, R80). -/
theorem completeFrame_eq (s : State) :
    completeFrame s = { s with
      ringCi := 0
      ringI := s.ringI + 1
      ringCount := countUp s.ringCount
      phase := if s.phase = .warmup ∧ (countUp s.ringCount).val = 33 then .main else s.phase
      trace := s.trace ++ [.frameDone s.ringI (s.phase == .main) s.ring[s.ringI]] } := by
  simp [completeFrame, endWarmup_eq, emit]

/-- After a store: the next channel, or the end of the frame after channel 15 (R78). -/
theorem nextChannel_cases (s : State) :
    (s.ringCi.val = 15 ∧ nextChannel s = completeFrame s) ∨
    (s.ringCi.val < 15 ∧ nextChannel s = { s with ringCi := s.ringCi + 1 } ∧
      (s.ringCi + 1).val = s.ringCi.val + 1) := by
  have hlt := s.ringCi.isLt
  by_cases h : s.ringCi.val = 15
  · exact .inl ⟨h, if_pos h⟩
  · refine .inr ⟨by omega, if_neg h, ?_⟩
    rw [Fin.val_add]
    exact Nat.mod_eq_of_lt (by simp only [Fin.val_one]; omega)

/-! ### The channel buffers -/

/-- An append changes the buffer of its channel (R98). -/
theorem appendSample_get (ch c : Fin 16) (v : Half) (s : State) :
    (appendSample ch v s).chbuf[c] = if c = ch then s.chbuf[c] ++ [v] else s.chbuf[c] := by
  have hv : (ch.val = c.val) = (c = ch) := by simp [Fin.ext_iff, eq_comm]
  simp only [appendSample_chbuf, Fin.getElem_fin, Vector.getElem_set, hv]
  split
  · rename_i h; subst h; rfl
  · rfl

/-! ### The trace -/

@[simp] theorem framesOf_append (a b : List Event) : framesOf (a ++ b) = framesOf a ++ framesOf b := by
  induction a with
  | nil => rfl
  | cons e a ih => cases e <;> simp [framesOf, ih]

@[simp] theorem samplesOf_append (ch : Fin 16) (a b : List Event) :
    samplesOf ch (a ++ b) = samplesOf ch a ++ samplesOf ch b := by
  induction a with
  | nil => rfl
  | cons e a ih =>
    cases e with
    | frameDone _ _ _ => simp [samplesOf, ih]
    | sample16 c v => by_cases h : c = ch <;> simp [samplesOf, ih, h]
    | fault _ => simp [samplesOf, ih]

/-! ### Conditions (R119, R121) -/

theorem raise_invalidLength (s : State) :
    raise .invalidLength s = { s with
      stream := [], n := 0#24, streamValid := false, err := 2#4, trace := s.trace ++ [.fault 2#4], phase := .idle } := rfl

theorem raise_fileTooLarge (s : State) :
    raise .fileTooLarge s = { s with
      stream := [], n := 0#24, streamValid := false, err := 3#4, trace := s.trace ++ [.fault 3#4], phase := .idle } := rfl

theorem raise_syncNotFound (s : State) :
    raise .syncNotFound s = { s with syncIndex := s.pos, syncFound := false, syncNotFound := true } := rfl

theorem raise_truncatedFrame (s : State) : raise .truncatedFrame s = { s with truncated := true } := rfl

theorem raise_channelOverflow (s : State) :
    raise .channelOverflow s = { s with err := 6#4, trace := s.trace ++ [.fault 6#4], phase := .fault } := rfl

/-! ### Commands (R102, R103) -/

/-- LOAD and RING_INIT: the effect in phases IDLE and DONE, else the refusal. -/
theorem whenIdle_cases (f : State → State) (s : State) :
    ((s.phase = .idle ∨ s.phase = .done) ∧ whenIdle f s = f { s with cmdRefused := false }) ∨
    ((s.phase ≠ .idle ∧ s.phase ≠ .done) ∧ whenIdle f s = { s with cmdRefused := true }) := by
  cases h : s.phase <;> simp [whenIdle, Phase.acceptsCommands, accept, refuse, h]

/-- FIND_SYNC and RUN: they need a valid stream besides. -/
theorem whenIdleAndLoaded_cases (f : State → State) (s : State) :
    (((s.phase = .idle ∨ s.phase = .done) ∧ s.streamValid = true) ∧
      whenIdleAndLoaded f s = f { s with cmdRefused := false }) ∨
    (((s.phase ≠ .idle ∧ s.phase ≠ .done) ∨ s.streamValid = false) ∧
      whenIdleAndLoaded f s = { s with cmdRefused := true }) := by
  cases h : s.phase <;> cases hv : s.streamValid <;>
    simp [whenIdleAndLoaded, Phase.acceptsCommands, accept, refuse, h, hv]

/-- The checks of LOAD (R61, R62, R122) and what a good length builds (R63). -/
theorem checkedLoad_cases (s : State) :
    (s.byteLen.toNat % 4 ≠ 0 ∧ checkedLoad s = raise .invalidLength s) ∨
    (s.byteLen.toNat % 4 = 0 ∧ Config.maxBytes < s.byteLen.toNat ∧ checkedLoad s = raise .fileTooLarge s) ∨
    (s.byteLen.toNat % 4 = 0 ∧ s.byteLen.toNat ≤ Config.maxBytes ∧ checkedLoad s = buildStream s ∧
      4 * (buildStream s).len = s.byteLen.toNat) := by
  by_cases h : s.byteLen.toNat % 4 = 0
  · by_cases h' : Config.maxBytes < s.byteLen.toNat
    · exact .inr (.inl ⟨h, h', by simp [checkedLoad, h, h']⟩)
    · refine .inr (.inr ⟨h, by omega, by simp [checkedLoad, h, h'], ?_⟩)
      have hm : Config.maxBytes = 33554432 := rfl
      simp only [buildStream, State.len, BitVec.toNat_ofNat]
      omega
  · exact .inl ⟨h, by simp [checkedLoad, h]⟩

/-! ### Register numbers (R32) -/

/-- Only number 0 is `CMD`. -/
theorem hostReg_cmd {n : Nat} (h : hostReg n = some .cmd) : n = 0 := by
  unfold hostReg at h
  split at h <;> first | rfl | simp_all

/-- What a write to a number other than `CMD`'s does (R108). -/
theorem execWrreg_cases {n : Nat} (hn : n ≠ 0) (v : Word) (s : State) :
    execWrreg n v s = .next s ∨ execWrreg n v s = .next { s with start := v } ∨
    execWrreg n v s = .next { s with byteLen := v } ∨ execWrreg n v s = .next { s with ringSeq := v } := by
  unfold execWrreg
  cases h : hostReg n with
  | none => exact .inl rfl
  | some r =>
    cases r with
    | cmd => exact absurd (hostReg_cmd h) hn
    | start => exact .inr (.inl rfl)
    | byteLen => exact .inr (.inr (.inl rfl))
    | ringSeq => exact .inr (.inr (.inr rfl))
    | _ => exact .inl rfl

/-- What a register read does (R107): the value goes to the host, and at most a draw is counted. -/
theorem execRdreg_cases (n : Nat) (s : State) :
    (∃ v, readNumber s n = some v ∧ execRdreg n s = .next { s with rdData := v }) ∨
    (readNumber s n = none ∧
      execRdreg n s = .next { s with rdData := Config.any32 s.draws, draws := s.draws + 1 }) := by
  unfold execRdreg
  cases h : readNumber s n with
  | some v => exact .inl ⟨v, rfl, rfl⟩
  | none => exact .inr ⟨rfl, rfl⟩

end Sys2Proof.Machine
end

