-- ==== Sys2Proof/Laws/Fetch.lean ====
section
/-! SUPPORT. What the fetch hands the decoder, phase by phase (spec/30_encoding.md R56), and what a step does with it. -/

namespace Sys2Proof.Machine

/-! ### The window -/

theorem fetchWindow_at_bound {port : Port} {bound count : Nat} {s : State} (h : bound ≤ s.pos.toNat) :
    fetchWindow port bound count s = .words ⟨port, []⟩ s := if_pos h

theorem fetchWindow_below {port : Port} {bound count : Nat} {s s1 : State} {ws : List Word} (h : s.pos.toNat < bound)
    (hr : readWords count s.pos.toNat s = .ok (ws, s1)) : fetchWindow port bound count s = .words ⟨port, ws⟩ s1 := by
  rw [fetchWindow, if_neg (Nat.not_le.2 h), hr]

/-! ### The block's turn over fixed words -/

theorem fetchStream_scanEnd {s : State} (hp : s.phase = .scan) (h : s.len - 1 ≤ s.pos.toNat) :
    fetchStream s = .words ⟨.scan, []⟩ s := by
  unfold fetchStream
  rw [hp]
  exact fetchWindow_at_bound h

theorem fetchStream_scan {s : State} (hp : s.phase = .scan) (hv : s.streamValid = true) (h : s.pos.toNat < s.len - 1)
    (h0 : wordListed s.stream s.pos.toNat = true) (h1 : wordListed s.stream (s.pos.toNat + 1) = true)
    (h2 : wordListed s.stream (s.pos.toNat + 2) = true) :
    fetchStream s =
      .words ⟨.scan, [s.word s.pos.toNat, s.word (s.pos.toNat + 1), s.word (s.pos.toNat + 2)]⟩ s := by
  unfold fetchStream
  rw [hp]
  exact fetchWindow_below h (readWords_three hv (by omega) h0 h1 h2)

theorem fetchStream_streamEnd {s : State} (hp : s.phase = .warmup ∨ s.phase = .main) (h : s.len ≤ s.pos.toNat) :
    fetchStream s = .words ⟨.demux, []⟩ s := by
  unfold fetchStream
  rcases hp with hp | hp <;> rw [hp] <;> exact fetchWindow_at_bound h

theorem fetchStream_demux {s : State} (hp : s.phase = .warmup ∨ s.phase = .main) (hv : s.streamValid = true)
    (h : s.pos.toNat < s.len) (h0 : wordListed s.stream s.pos.toNat = true)
    (h1 : wordListed s.stream (s.pos.toNat + 1) = true) :
    fetchStream s = .words ⟨.demux, [s.word s.pos.toNat, s.word (s.pos.toNat + 1)]⟩ s := by
  unfold fetchStream
  rcases hp with hp | hp <;> rw [hp] <;> exact fetchWindow_below h (readWords_two hv (by omega) h0 h1)

theorem fetchStream_lEnd {s : State} (hp : s.phase = .legacy) (h : s.len ≤ s.pos.toNat) :
    fetchStream s = .words ⟨.legacy, []⟩ s := by
  unfold fetchStream
  rw [hp]
  exact fetchWindow_at_bound h

theorem fetchStream_legacy {s : State} (hp : s.phase = .legacy) (hv : s.streamValid = true) (h : s.pos.toNat < s.len)
    (h0 : wordListed s.stream s.pos.toNat = true) :
    fetchStream s = .words ⟨.legacy, [s.word s.pos.toNat]⟩ s := by
  unfold fetchStream
  rw [hp]
  exact fetchWindow_below h (by simp [readWords, readWord_of_listed hv (show s.pos.toNat ≤ s.len by omega) h0])

theorem fetchStream_quiet {s : State} (h : s.isBusy = false) : fetchStream s = .quiet s := by
  unfold fetchStream
  cases hp : s.phase <;> simp_all [State.isBusy, Phase.busy]

/-! ### The block's turn, whatever the words -/

/-- A busy block with a valid stream gets words of a length its decoder takes, and nothing changes but the count of
draws (R46, R56). -/
theorem fetchStream_busy {s : State} (hb : s.isBusy = true) (hv : s.streamValid = true) :
    ∃ e i d, fetchStream s = .words e { s with draws := d } ∧ decode e = .ok i := by
  have window : ∀ (port : Port) (bound count : Nat), (bound = s.len - 1 ∧ count = 3 ∨ bound = s.len ∧ count ≤ 2) →
      ∃ ws d, fetchWindow port bound count s = .words ⟨port, ws⟩ { s with draws := d } ∧
        (ws = [] ∨ ws.length = count) := by
    intro port bound count h
    by_cases hl : bound ≤ s.pos.toNat
    · exact ⟨[], s.draws, fetchWindow_at_bound hl, .inl rfl⟩
    · obtain ⟨ws, d, hr, hlen⟩ := readWords_in_range (s := s) (count := count) (k := s.pos.toNat) hv (by omega)
      exact ⟨ws, d, fetchWindow_below (by omega) hr, .inr hlen⟩
  have three : ∀ ws : List Word, ws = [] ∨ ws.length = 3 → ∃ i, decode ⟨.scan, ws⟩ = .ok i := by
    rintro ws (rfl | h)
    · exact ⟨_, rfl⟩
    · obtain ⟨a, b, c, rfl⟩ := List.length_eq_three.1 h
      exact ⟨_, rfl⟩
  have two : ∀ ws : List Word, ws = [] ∨ ws.length = 2 → ∃ i, decode ⟨.demux, ws⟩ = .ok i := by
    rintro ws (rfl | h)
    · exact ⟨_, rfl⟩
    · obtain ⟨a, b, rfl⟩ := List.length_eq_two.1 h
      exact ⟨_, rfl⟩
  have one : ∀ ws : List Word, ws = [] ∨ ws.length = 1 → ∃ i, decode ⟨.legacy, ws⟩ = .ok i := by
    rintro ws (rfl | h)
    · exact ⟨_, rfl⟩
    · obtain ⟨a, rfl⟩ := List.length_eq_one_iff.1 h
      exact ⟨_, rfl⟩
  cases hp : s.phase with
  | scan =>
    obtain ⟨ws, d, hf, hw⟩ := window .scan (s.len - 1) 3 (.inl ⟨rfl, rfl⟩)
    obtain ⟨i, hi⟩ := three ws hw
    exact ⟨_, i, d, (by unfold fetchStream; simp only [hp]; rw [← hp]; exact hf), hi⟩
  | warmup =>
    obtain ⟨ws, d, hf, hw⟩ := window .demux s.len 2 (.inr ⟨rfl, by decide⟩)
    obtain ⟨i, hi⟩ := two ws hw
    exact ⟨_, i, d, (by unfold fetchStream; simp only [hp]; rw [← hp]; exact hf), hi⟩
  | main =>
    obtain ⟨ws, d, hf, hw⟩ := window .demux s.len 2 (.inr ⟨rfl, by decide⟩)
    obtain ⟨i, hi⟩ := two ws hw
    exact ⟨_, i, d, (by unfold fetchStream; simp only [hp]; rw [← hp]; exact hf), hi⟩
  | legacy =>
    obtain ⟨ws, d, hf, hw⟩ := window .legacy s.len 1 (.inr ⟨rfl, by decide⟩)
    obtain ⟨i, hi⟩ := one ws hw
    exact ⟨_, i, d, (by unfold fetchStream; simp only [hp]; rw [← hp]; exact hf), hi⟩
  | idle => simp [State.isBusy, Phase.busy, hp] at hb
  | done => simp [State.isBusy, Phase.busy, hp] at hb
  | fault => simp [State.isBusy, Phase.busy, hp] at hb

/-! ### The turn -/

/-- On the block's turn the schedule loses that turn, and nothing else happens before the fetch. -/
theorem fetchNext_of_blockTurn {s : State} {rest : List HostTurn} (h : s.BlockTurn rest) :
    fetchNext s = fetchStream { s with inbox := rest } := by
  unfold fetchNext
  rcases h with ⟨h, rfl⟩ | h
  · rw [h]
    have : ({ s with inbox := [] } : State) = s := by rw [← h]
    rw [this]
  · rw [h]

/-- A step runs the instruction its turn's words decode to. -/
theorem step_of_fetch {s s1 : State} {e : Encoding} {i : Instr} (h : fetchNext s = .words e s1)
    (hd : decode e = .ok i) : step s = exec i s1 := by
  simp only [step, h, hd]

theorem step_of_quiet {s s1 : State} (h : fetchNext s = .quiet s1) : step s = .next s1 := by
  simp only [step, h]

/-- No meaning stops: `exec` answers a next state for every instruction in every state. -/
theorem exec_next (i : Instr) (s : State) : ∃ t, exec i s = .next t := by
  have lrec : ∀ tag v0, ∃ t, execLRec tag v0 s = .next t := by
    intro tag v0
    unfold execLRec
    simp only
    split
    · exact ⟨_, rfl⟩
    · split <;> exact ⟨_, rfl⟩
  have command : ∀ v, ∃ t, performCommand v s = .next t := by
    intro v
    unfold performCommand
    cases commandOp v <;> exact ⟨_, rfl⟩
  cases i with
  | lRec hi tag b2 v0 => exact lrec tag v0
  | rdreg n =>
    simp only [exec, execRdreg]
    cases readNumber s n <;> exact ⟨_, rfl⟩
  | wrreg n v =>
    simp only [exec, execWrreg]
    cases hostReg n with
    | none => exact ⟨_, rfl⟩
    | some r => cases r <;> first | exact command v | exact ⟨_, rfl⟩
  | _ => exact ⟨_, rfl⟩

end Sys2Proof.Machine
end

