-- ==== Sys2Proof/Laws/Step.lean ====
section
/-! SUPPORT. What a step can do, said once: every turn is one of six, and a stream instruction occurs only where its
decode condition holds (spec/30_encoding.md R56). -/

namespace Sys2Proof.Machine

/-- A window either is empty, at its bound, or holds its words, below it; nothing but the count of draws changes. -/
theorem fetchWindow_cases {port : Port} {bound count : Nat} {s s1 : State} {e : Encoding}
    (h : fetchWindow port bound count s = .words e s1) :
    s1 = { s with draws := s1.draws } ∧
    ((bound ≤ s.pos.toNat ∧ e = ⟨port, []⟩) ∨
      (s.pos.toNat < bound ∧ ∃ ws, e = ⟨port, ws⟩ ∧ ws.length = count)) := by
  unfold fetchWindow at h
  split at h
  · rename_i hb
    injection h with he hs
    subst he hs
    exact ⟨rfl, .inl ⟨hb, rfl⟩⟩
  · rename_i hb
    split at h
    · cases h
    · rename_i ws s2 hr
      injection h with he hs
      subst he hs
      have := readWords_ok hr
      exact ⟨this.1, .inr ⟨by omega, ws, rfl, this.2⟩⟩

/-- The words the block fetches decode to an instruction whose condition holds (R56). -/
theorem fetchStream_cases {s s1 : State} {e : Encoding} {i : Instr} (h : fetchStream s = .words e s1)
    (hd : decode e = .ok i) : s1 = { s with draws := s1.draws } ∧ s.canDecode i := by
  have scan : ∀ {s1 : State} {e}, fetchWindow .scan (s.len - 1) 3 s = .words e s1 → decode e = .ok i → s.phase = .scan →
      s1 = { s with draws := s1.draws } ∧ s.canDecode i := by
    intro s1 e h hd hp
    obtain ⟨hs, ⟨hb, rfl⟩ | ⟨hb, ws, rfl, hl⟩⟩ := fetchWindow_cases h
    · cases hd
      exact ⟨hs, hp, hb⟩
    · obtain ⟨a, b, c, rfl⟩ := List.length_eq_three.1 hl
      injection hd with hd
      unfold decodeScan at hd
      split at hd <;> subst hd <;> exact ⟨hs, hp, hb⟩
  have demux : ∀ {s1 : State} {e}, fetchWindow .demux s.len 2 s = .words e s1 → decode e = .ok i →
      (s.phase = .warmup ∨ s.phase = .main) → s1 = { s with draws := s1.draws } ∧ s.canDecode i := by
    intro s1 e h hd hp
    obtain ⟨hs, ⟨hb, rfl⟩ | ⟨hb, ws, rfl, hl⟩⟩ := fetchWindow_cases h
    · cases hd
      exact ⟨hs, hp, hb⟩
    · obtain ⟨a, b, rfl⟩ := List.length_eq_two.1 hl
      injection hd with hd
      unfold decodeDemux at hd
      split at hd <;> subst hd <;> exact ⟨hs, hp, hb⟩
  have legacy : ∀ {s1 : State} {e}, fetchWindow .legacy s.len 1 s = .words e s1 → decode e = .ok i →
      s.phase = .legacy → s1 = { s with draws := s1.draws } ∧ s.canDecode i := by
    intro s1 e h hd hp
    obtain ⟨hs, ⟨hb, rfl⟩ | ⟨hb, ws, rfl, hl⟩⟩ := fetchWindow_cases h
    · cases hd
      exact ⟨hs, hp, hb⟩
    · obtain ⟨a, rfl⟩ := List.length_eq_one_iff.1 hl
      cases hd
      exact ⟨hs, hp, hb⟩
  unfold fetchStream at h
  split at h
  · rename_i hp; exact scan h hd hp
  · rename_i hp; exact demux h hd (.inl hp)
  · rename_i hp; exact demux h hd (.inr hp)
  · rename_i hp; exact legacy h hd hp
  · cases h
  · cases h
  · cases h

/-- A fetch that brings no words is that of a block that is not busy. -/
theorem fetchStream_quiet_iff {s s1 : State} (h : fetchStream s = .quiet s1) : s.isBusy = false ∧ s1 = s := by
  have window : ∀ port bound count, fetchWindow port bound count s ≠ .quiet s1 := by
    intro port bound count h
    unfold fetchWindow at h
    split at h
    · cases h
    · split at h <;> cases h
  unfold fetchStream at h
  split at h
  · exact absurd h (window _ _ _)
  · exact absurd h (window _ _ _)
  · exact absurd h (window _ _ _)
  · exact absurd h (window _ _ _)
  all_goals
    rename_i hp
    injection h with h
    exact ⟨by simp [State.isBusy, Phase.busy, hp], h.symm⟩

/-- Everything a step that answers a next state can be. -/
theorem step_cases {s t : State} (h : step s = .next t) :
    (∃ rest, s.BlockTurn rest ∧ s.isBusy = false ∧ t = { s with inbox := rest }) ∨
    (∃ rest i d, s.BlockTurn rest ∧ s.canDecode i ∧ exec i { s with inbox := rest, draws := d } = .next t) ∨
    (∃ bytes rest, s.inbox = .present bytes :: rest ∧ t = presentBuffer bytes { s with inbox := rest }) ∨
    (∃ n rest, s.inbox = .read n :: rest ∧ exec (.rdreg n) { s with inbox := rest } = .next t) ∨
    (∃ n v rest, s.inbox = .write n v :: rest ∧ exec (decodeWrite n v) { s with inbox := rest } = .next t) ∨
    (∃ rest, s.inbox = .resetInput :: rest ∧ t = resetBlock { s with inbox := rest }) := by
  have block : ∀ rest, s.BlockTurn rest →
      (∃ rest, s.BlockTurn rest ∧ s.isBusy = false ∧ t = { s with inbox := rest }) ∨
      (∃ rest i d, s.BlockTurn rest ∧ s.canDecode i ∧ exec i { s with inbox := rest, draws := d } = .next t) := by
    intro rest hb
    unfold step at h
    rw [fetchNext_of_blockTurn hb] at h
    cases hf : fetchStream { s with inbox := rest } with
    | quiet s1 =>
      rw [hf] at h
      injection h with h
      obtain ⟨hq, rfl⟩ := fetchStream_quiet_iff hf
      exact .inl ⟨rest, hb, hq, h.symm⟩
    | stopped r => rw [hf] at h; cases h
    | words e s1 =>
      rw [hf] at h
      simp only at h
      split at h
      · rename_i i hd
        obtain ⟨hs, hc⟩ := fetchStream_cases hf hd
        rw [hs] at h
        have hc' : s.canDecode i := by cases i <;> exact hc
        exact .inr ⟨rest, i, s1.draws, hb, hc', h⟩
      · cases h
  cases hi : s.inbox with
  | nil => rcases block [] (.inl ⟨hi, rfl⟩) with h | h <;> [exact .inl h; exact .inr (.inl h)]
  | cons turn rest =>
    cases turn with
    | block => rcases block rest (.inr hi) with h | h <;> [exact .inl h; exact .inr (.inl h)]
    | present bytes =>
      simp only [step, fetchNext, hi] at h
      injection h with h
      exact .inr (.inr (.inl ⟨bytes, rest, rfl, h.symm⟩))
    | read n =>
      simp only [step, fetchNext, hi, decode] at h
      exact .inr (.inr (.inr (.inl ⟨n, rest, rfl, h⟩)))
    | write n v =>
      simp only [step, fetchNext, hi, decode] at h
      exact .inr (.inr (.inr (.inr (.inl ⟨n, v, rest, rfl, h⟩))))
    | resetInput =>
      simp only [step, fetchNext, hi] at h
      injection h with h
      exact .inr (.inr (.inr (.inr (.inr ⟨rest, rfl, h.symm⟩))))

end Sys2Proof.Machine
end

