-- ==== Sys2Proof/Laws/Inv.lean ====
section
/-! SUPPORT. The invariant of a state that differs from another one only outside the stream, the ring and the frames. -/

namespace Sys2Proof.Machine

/-- With the same stream, ring, cursors, count and frames, only the parts about the phase, the flags, the code, the mode
and the channel buffers are left to show. -/
theorem Inv.of_same_core {s t : State} (h : Inv s) (hstream : t.stream = s.stream) (hn : t.n = s.n)
    (hv : t.streamValid = s.streamValid) (hring : t.ring = s.ring) (hi : t.ringI = s.ringI) (hci : t.ringCi = s.ringCi)
    (hcount : t.ringCount = s.ringCount) (hframes : framesOf t.trace = framesOf s.trace)
    (busyLoaded : t.isBusy = true → s.streamValid = true)
    (warmupNotFull : t.phase = .warmup → s.ringCount.val ≠ 33)
    (errCodes : t.err = 0#4 ∨ t.err = 2#4 ∨ t.err = 3#4 ∨ t.err = 6#4)
    (faultIsOverflow : t.phase = .fault ↔ t.err = 6#4)
    (oneScanResult : ¬ (t.syncFound = true ∧ t.syncNotFound = true))
    (withinCap : ∀ ch : Fin 16, chLen t ch ≤ t.legacyCap)
    (legacyMode : t.phase = .legacy → t.mode = .legacy)
    (roundRobinMode : t.phase = .warmup ∨ t.phase = .main ∨ (t.phase = .scan ∧ t.afterScan = .warmup) →
      t.mode = .roundRobin) : Inv t := by
  have hlen : t.len = s.len := congrArg BitVec.toNat hn
  have hF : t.frames = s.frames := congrArg List.length hframes
  have hcell : ∀ slot k, ringCell t slot k = ringCell s slot k := fun slot k => by simp only [ringCell, hring]
  exact {
    streamWf := hstream ▸ h.streamWf
    streamBound := by rw [hstream, hlen]; exact h.streamBound
    lenBound := by rw [hlen]; exact h.lenBound
    sentinel := by rw [hv, hlen]; unfold State.Holds; rw [hstream]; exact h.sentinel
    noStream := by rw [hv, hlen, hstream]; exact h.noStream
    busyLoaded := by rw [hv]; exact busyLoaded
    warmupNotFull := by rw [hcount]; exact warmupNotFull
    countIsFrames := by rw [hcount, hF]; exact h.countIsFrames
    slotIsFrames := by rw [hi, hF]; exact h.slotIsFrames
    begunWritten := by intro k; rw [hi, hci, hcell]; exact h.begunWritten k
    frameSlots := by rw [hframes]; exact h.frameSlots
    framesWhole := by rw [hframes]; exact h.framesWhole
    retained := by
      rw [hframes, hF, hi, hci]
      intro q e hq hq' k hk
      rw [hcell]
      exact h.retained q e hq hq' k hk
    errCodes := errCodes
    faultIsOverflow := faultIsOverflow
    oneScanResult := oneScanResult
    withinCap := withinCap
    legacyMode := legacyMode
    roundRobinMode := roundRobinMode }

end Sys2Proof.Machine
end

