-- ==== Sys2Proof/Laws/PerInstr.lean ====
section
/-! SUPPORT. What is said of every instruction as syntax: its encoding has the form the table of spec/30_encoding.md
gives its row. -/

namespace Sys2Proof.Laws.EncodingForm

/-- The words the row's format holds (30_encoding.md R56, R58): none for `W0` and for a register read, the words the
phase tests for the other stream rows, the one value for a host write. -/
def wordCount : Instr → Nat
  | .scanEnd => 0
  | .sync3 _ _ _ => 3
  | .scanSkip _ _ _ => 3
  | .streamEnd => 0
  | .fillPair => 2
  | .data _ _ => 2
  | .lEnd => 0
  | .lRec _ _ _ _ => 1
  | .nop _ => 1
  | .load _ => 1
  | .findSync _ => 1
  | .run _ _ => 1
  | .ringInit _ => 1
  | .reset _ => 1
  | .cmdReserved _ => 1
  | .rdreg _ => 0
  | .wrreg _ _ => 1

/-- An instruction's encoding has as many words as its row's format, and words of that number at its place are always
some instruction. -/
def Statement (i : Instr) : Prop :=
  (encode i).words.length = wordCount i ∧ ∃ j, decode (encode i) = .ok j

theorem scanEnd : Statement .scanEnd := ⟨rfl, _, rfl⟩
theorem sync3 (w0 w1 w2 : Word) : Statement (.sync3 w0 w1 w2) := ⟨rfl, _, rfl⟩
theorem scanSkip (w0 w1 w2 : Word) : Statement (.scanSkip w0 w1 w2) := ⟨rfl, _, rfl⟩
theorem streamEnd : Statement .streamEnd := ⟨rfl, _, rfl⟩
theorem fillPair : Statement .fillPair := ⟨rfl, _, rfl⟩
theorem data (w next : Word) : Statement (.data w next) := ⟨rfl, _, rfl⟩
theorem lEnd : Statement .lEnd := ⟨rfl, _, rfl⟩
theorem lRec (hi tag : BitVec 4) (b2 : Byte) (v0 : Half) : Statement (.lRec hi tag b2 v0) := ⟨rfl, _, rfl⟩
theorem nop (x : BitVec 2) : Statement (.nop x) := ⟨rfl, _, rfl⟩
theorem load (x : BitVec 2) : Statement (.load x) := ⟨rfl, _, rfl⟩
theorem findSync (x : BitVec 2) : Statement (.findSync x) := ⟨rfl, _, rfl⟩
theorem run (mode : Mode) (sync : Bool) : Statement (.run mode sync) := ⟨rfl, _, rfl⟩
theorem ringInit (x : BitVec 2) : Statement (.ringInit x) := ⟨rfl, _, rfl⟩
theorem reset (x : BitVec 2) : Statement (.reset x) := ⟨rfl, _, rfl⟩
theorem cmdReserved (v : Word) : Statement (.cmdReserved v) := ⟨rfl, _, rfl⟩
theorem rdreg (n : Nat) : Statement (.rdreg n) := ⟨rfl, _, rfl⟩
theorem wrreg (n : Nat) (v : Word) : Statement (.wrreg n v) := ⟨rfl, _, rfl⟩

end Sys2Proof.Laws.EncodingForm
end

