-- ==== Sys2Proof/Tests/Slice0.lean ====
section
/-! SUPPORT. The model's own tests: ill-formed terms, words written out from spec/30_encoding.md, single steps with the
values of spec/95_test_vectors.md, and for every statement with hypotheses a witness that meets them. -/

namespace Sys2Proof.Tests

open Sys2Proof Sys2Proof.Machine

/-! ### Well-formedness: an ill-formed term for each check -/

/-- Fields 0, 1, 1 are no triple (R67; vector S7). -/
theorem test_wf_sync3 : (Instr.sync3 0x00000000#32 0x01000000#32 0x01000000#32).wf = false := by decide

/-- A triple is not skipped (R68). -/
theorem test_wf_scanSkip : (Instr.scanSkip 0xF8000000#32 0xF9FFFFFF#32 0xF8000000#32).wf = false := by decide

/-- A filler pair is not data (R78). -/
theorem test_wf_data : (Instr.data 0xEEEEEEEE#32 0xEEEEEEEE#32).wf = false := by decide

/-- `RESET` with an option bit set is not reserved (R106). -/
theorem test_wf_cmdReserved : (Instr.cmdReserved 0x0000003F#32).wf = false := by decide

/-- A write to `CMD` is a command, not a WRREG (R58). -/
theorem test_wf_wrreg : (Instr.wrreg 0 0x00000001#32).wf = false := by decide

/-! ### Decoding, from the words of the spec -/

/-- The source's triple (EX5). -/
theorem test_decode_sync3 :
    decode ⟨.scan, [0b00000000000000000000000000000001#32, 0b00000001000000000000000000000010#32,
      0b00000000000000000000000000000011#32]⟩ = .ok (.sync3 0x00000001#32 0x01000002#32 0x00000003#32) := by decide

/-- Only bits 26:24 are compared (S10), and bits 31:29 are not the field (C1). -/
theorem test_decode_sync3_other_bits_free :
    decode ⟨.scan, [0xF8000000#32, 0xF9FFFFFF#32, 0xF8000000#32]⟩
      = .ok (.sync3 0xF8000000#32 0xF9FFFFFF#32 0xF8000000#32) := by decide

/-- Fields 0, 1, 1 (S7). -/
theorem test_decode_scanSkip :
    decode ⟨.scan, [0x00000000#32, 0x01000000#32, 0x01000000#32]⟩
      = .ok (.scanSkip 0x00000000#32 0x01000000#32 0x01000000#32) := by decide

theorem test_decode_scanEnd : decode ⟨.scan, []⟩ = .ok .scanEnd := by decide

theorem test_decode_streamEnd : decode ⟨.demux, []⟩ = .ok .streamEnd := by decide

theorem test_decode_lEnd : decode ⟨.legacy, []⟩ = .ok .lEnd := by decide

theorem test_decode_fillPair :
    decode ⟨.demux, [0b11101110111011101110111011101110#32, 0b11101110111011101110111011101110#32]⟩
      = .ok .fillPair := by decide

/-- A filler word before another word is data (DX9), and so is any other (R57). -/
theorem test_decode_data :
    decode ⟨.demux, [0xEEEEEEEE#32, 0x000000A2#32]⟩ = .ok (.data 0xEEEEEEEE#32 0x000000A2#32) := by decide

/-- Bytes `34 12 AB C5` (L-1): channel 5, first value 0x1234. -/
theorem test_decode_lRec :
    decode ⟨.legacy, [wordOfBytes 0x34#8 0x12#8 0xAB#8 0xC5#8]⟩ = .ok (.lRec 0xC#4 0x5#4 0xAB#8 0x1234#16) := by decide

/-- The commands, one word each, with their option bits set (R58). -/
theorem test_decode_nop : decode ⟨.write 0, [0b00000000000000000000000000110000#32]⟩ = .ok (.nop 3#2) := by decide
theorem test_decode_load : decode ⟨.write 0, [0b00000000000000000000000000010001#32]⟩ = .ok (.load 1#2) := by decide
theorem test_decode_findSync :
    decode ⟨.write 0, [0b00000000000000000000000000100010#32]⟩ = .ok (.findSync 2#2) := by decide
theorem test_decode_run : decode ⟨.write 0, [0b00000000000000000000000000010011#32]⟩ = .ok (.run .roundRobin true) := by
  decide
theorem test_decode_run_legacy :
    decode ⟨.write 0, [0b00000000000000000000000000100011#32]⟩ = .ok (.run .legacy false) := by decide
theorem test_decode_ringInit :
    decode ⟨.write 0, [0b00000000000000000000000000000100#32]⟩ = .ok (.ringInit 0#2) := by decide
theorem test_decode_reset : decode ⟨.write 0, [0b00000000000000000000000000001111#32]⟩ = .ok (.reset 0#2) := by decide
theorem test_decode_reserved_op :
    decode ⟨.write 0, [0b00000000000000000000000000000101#32]⟩ = .ok (.cmdReserved 0x5#32) := by decide
theorem test_decode_reserved_bit :
    decode ⟨.write 0, [0b00000000000000000000000001001111#32]⟩ = .ok (.cmdReserved 0x4F#32) := by decide
theorem test_decode_rdreg : decode ⟨.read 0x1F, []⟩ = .ok (.rdreg 0x1F) := by decide
theorem test_decode_wrreg : decode ⟨.write 0x02, [76#32]⟩ = .ok (.wrreg 0x02 76#32) := by decide

/-- Words of a wrong number are refused by name. -/
theorem test_decode_wrong_length : decode ⟨.scan, [0#32]⟩ = .error .scanLength := by decide

/-- The encoder writes `RUN sync=1 mode=RR` as 0x13 (R72) and `RUN mode=LEGACY` as 0x23 (R93). -/
theorem test_encode_run : encode (.run .roundRobin true) = ⟨.write 0, [0x00000013#32]⟩ ∧
    encode (.run .legacy false) = ⟨.write 0, [0x00000023#32]⟩ := by decide

/-- The encoder puts the tag and the values of a record in their bytes (R54). -/
theorem test_encode_lRec : encode (.lRec 0xC#4 0x5#4 0xAB#8 0x1234#16) = ⟨.legacy, [0xC5AB1234#32]⟩ := by decide

/-- Rows of spec/opcode_table.json: 32 bits a `CMD` value, 64 a filler pair, 96 a triple, 8 or fewer a `W0` row,
0 a register. -/
theorem test_tableWord_commands :
    decodeTableWord 32 0x0 = some (.nop 0#2) ∧ decodeTableWord 32 0x1 = some (.load 0#2) ∧
    decodeTableWord 32 0x2 = some (.findSync 0#2) ∧ decodeTableWord 32 0x3 = some (.run .roundRobin false) ∧
    decodeTableWord 32 0x4 = some (.ringInit 0#2) ∧ decodeTableWord 32 0xF = some (.reset 0#2) := by decide
theorem test_tableWord_without_encoding :
    decodeTableWord 8 0x0 = some .scanEnd ∧ decodeTableWord 0 0x0 = some (.rdreg 0) := by decide
theorem test_tableWord_fillPair : decodeTableWord 64 0xEEEEEEEEEEEEEEEE = some .fillPair := by decide
theorem test_tableWord_sync3 :
    decodeTableWord 96 0x000000000100000000000000 = some (.sync3 0#32 0x01000000#32 0#32) := by decide

/-! ### States the tests run in -/

/-- A block with the words `ws` loaded, in phase `ph`, two values to a legacy channel. -/
def loaded (ph : Phase) (ws : List Word) : State :=
  { State.reset with
    stream := Memory.ofStream (ws.flatMap bytesOfWord) ws.length
    n := BitVec.ofNat 24 ws.length
    streamValid := true
    phase := ph
    legacyCap := 2 }

/-- The next state of an outcome has the property. -/
def after (o : Host.Outcome State Fault Refusal) (p : State → Bool) : Bool :=
  match o with
  | .next t => p t
  | .fault _ => false
  | .refused _ => false

/-- Bytes of the words, as a host presents them. -/
def presented (ws : List Word) : List Byte := ws.flatMap bytesOfWord

/-! ### One step each -/

/-- S3: the sentinel is the third word. -/
theorem test_sync3_sentinel :
    after (step (loaded .scan [0x00000000#32, 0x01000000#32])) (fun t =>
      t.syncIndex == 0#32 && t.pos == 3#32 && t.syncFound && !t.syncNotFound && t.phase == .done) = true := by decide

/-- S13: from index 4 the cursor goes to 7, the result is 4. -/
theorem test_sync3_index :
    after (step { loaded .scan [0#32, 0x01000000#32, 0#32, 0x07000000#32, 0#32, 0x01000000#32, 0x10000000#32, 3#32] with
      pos := 4#32 }) (fun t => t.syncIndex == 4#32 && t.pos == 7#32 && t.syncFound) = true := by decide

/-- S7: the failed candidate is left by one word, not by three. -/
theorem test_scanSkip_one :
    after (step (loaded .scan [0#32, 0x01000000#32, 0x01000000#32, 0#32])) (fun t =>
      t.pos == 1#32 && t.phase == .scan && !t.syncFound && !t.syncNotFound) = true := by decide

/-- S12, its last step: the limit is `N - 1`. -/
theorem test_scanEnd_limit :
    after (step { loaded .scan [5#32, 5#32, 5#32, 5#32, 5#32] with pos := 4#32 }) (fun t =>
      t.syncIndex == 4#32 && t.pos == 4#32 && t.syncNotFound && statusWord t == 0x0000042D#32) = true := by decide

/-- S1: an empty stream ends at limit 0, not at a wrapped limit. -/
theorem test_scanEnd_empty :
    after (step { loaded .scan [] with afterScan := .warmup }) (fun t =>
      t.syncIndex == 0#32 && t.syncNotFound && t.phase == .warmup) = true := by decide

/-- DX10, its second step: the cursor passes the end of the stream. -/
theorem test_fillPair_past_end :
    after (step { loaded .main [0xA1#32, 0xEEEEEEEE#32, 0xEEEEEEEE#32, 0xA2#32] with pos := 1#32, ringCi := 1 })
      (fun t => t.pos == 5#32 && t.ringCi == 1 && t.phase == .main && t.trace == []) = true := by decide

/-- DX2: a filler word at `N - 1` is data, its lookahead the sentinel. -/
theorem test_data_lone_filler :
    after (step (loaded .main [0xEEEEEEEE#32])) (fun t =>
      t.pos == 1#32 && t.ringCi == 1 && ringCell t 0 0 == some 0xEEEEEEEE#32 && ringCell t 0 1 == none) = true := by decide

/-- R-2, its last DATA: slot 32 wraps to slot 0, the ring is full, the warm-up over, the frame not valid. -/
theorem test_data_wrap :
    after (step { loaded .warmup [0x2000200F#32] with ringI := 32, ringCi := 15, ringCount := 32 }) (fun t =>
      t.ringI == 0 && t.ringCi == 0 && t.ringCount == 33 && t.phase == .main &&
      (framesOf t.trace).map (fun e => (e.1, e.2.1)) == [(32, false)]) = true := by decide

/-- DX2, its end: `STATUS` 0x44D. -/
theorem test_streamEnd_truncated :
    after (step { loaded .main [0xEEEEEEEE#32] with pos := 1#32, ringCi := 1 }) (fun t =>
      statusWord t == 0x0000044D#32 && t.pos == 1#32 && t.ringCi == 1) = true := by decide

/-- DX7: a start beyond the end ends at once. -/
theorem test_streamEnd_start_beyond :
    after (step { loaded .main [0xA#32, 0xB#32] with pos := 5#32 }) (fun t =>
      statusWord t == 0x0000040D#32 && t.pos == 5#32) = true := by decide

/-- L-1: the first event is `Sample16(5, 0x1234)`. -/
theorem test_lRec :
    after (step (loaded .legacy [0xC5AB1234#32])) (fun t =>
      t.pos == 1#32 && chLen t 5 == 2 && t.trace.head? == some (.sample16 5 0x1234#16) && t.phase == .legacy) = true := by
  decide

/-- L-4: with room for one value the overflow comes at the second. -/
theorem test_lRec_overflow :
    after (step { loaded .legacy [0xC5AB1234#32] with legacyCap := 1 }) (fun t =>
      t.trace == [.sample16 5 0x1234#16, .fault 6#4] && t.pos == 0#32 && statusWord t == 0x0000600E#32) = true := by decide

/-- L-6: an empty legacy pass. -/
theorem test_lEnd :
    after (step (loaded .legacy [])) (fun t => statusWord t == 0x0000040D#32 && t.trace == []) = true := by decide

/-- Session step 3: NOP clears `cmd_refused`. -/
theorem test_nop :
    after (step { State.reset with cmdRefused := true, inbox := [.write 0 0x0#32] }) (fun t =>
      statusWord t == 0x0#32 && t.inbox == []) = true := by decide

/-- LOAD of `01 02 03 04` (section 2.1): `W[0] = 0x04030201`, `W[1] = 0`. -/
theorem test_load :
    after (step { State.reset with byteLen := 4#32, hostBuf := [1#8, 2#8, 3#8, 4#8], inbox := [.write 0 0x1#32] })
      (fun t => statusWord t == 0x00000008#32 && t.n == 1#24 && t.word 0 == 0x04030201#32 && t.word 1 == 0#32) = true := by
  decide

/-- LOAD of 33554434 bytes: misaligned and too large, the alignment is reported. -/
theorem test_load_both_bad :
    after (step { loaded .done [0#32] with byteLen := 33554434#32, inbox := [.write 0 0x1#32] })
      (fun t => statusWord t == 0x00002000#32 && t.n == 0#24 && t.trace == [.fault 2#4]) = true := by decide

/-- FIND_SYNC takes the cursor from `START`. -/
theorem test_findSync :
    after (step { loaded .idle [0#32] with start := 7#32, inbox := [.write 0 0x2#32] }) (fun t =>
      t.pos == 7#32 && t.phase == .scan && t.afterScan == .done) = true := by decide

/-- Session step 8: refused without a stream, `ERR` stays. -/
theorem test_findSync_refused :
    after (step { State.reset with err := 2#4, inbox := [.write 0 0x2#32] }) (fun t =>
      statusWord t == 0x00002100#32) = true := by decide

/-- Session step 12: `RUN sync=1` reads 0x209 while it scans. -/
theorem test_run :
    after (step { loaded .idle [0#32] with inbox := [.write 0 0x13#32] }) (fun t =>
      statusWord t == 0x00000209#32 && t.afterScan == .warmup) = true := by decide

/-- `RUN mode=LEGACY` ignores the sync option (R93). -/
theorem test_run_legacy :
    after (step { loaded .done [0#32] with inbox := [.write 0 0x33#32] }) (fun t =>
      t.phase == .legacy && t.mode == .legacy && chLen t 15 == 0) = true := by decide

/-- Session step 11: RING_INIT leaves `SYNC_FOUND`. -/
theorem test_ringInit :
    after (step { loaded .done [0#32] with syncFound := true, ringCi := 3, truncated := true, inbox := [.write 0 0x4#32] })
      (fun t => statusWord t == 0x00000018#32 && t.ringCi == 0) = true := by decide

/-- RESET leaves phase FAULT (R105). -/
theorem test_reset :
    after (step { loaded .fault [0#32] with err := 6#4, start := 9#32, inbox := [.write 0 0xF#32] })
      (fun t => statusWord t == 0x0#32 && t.start == 0#32 && t.n == 0#24) = true := by decide

/-- Session step 5: bit 6 set, refused, no reset. -/
theorem test_reserved :
    after (step { State.reset with start := 9#32, inbox := [.write 0 0x4F#32] })
      (fun t => statusWord t == 0x00000100#32 && t.start == 9#32) = true := by decide

/-- The read window after R-3: `RING_SEQ = 0xFFFFFFFF` shows slot 3. -/
theorem test_rdreg_window :
    after (step { State.reset with
        ringSeq := 0xFFFFFFFF#32, inbox := [.read 0x1F]
        ring := emptyRing.set 3 (Vector.replicate 16 (some 0x2000030F#32)) })
      (fun t => t.rdData == 0x2000030F#32 && t.draws == 0) = true := by decide

/-- Session step 15: an unknown number reads 0. -/
theorem test_rdreg_unknown :
    after (step { State.reset with rdData := 1#32, inbox := [.read 0x3F] }) (fun t => t.rdData == 0#32) = true := by decide

/-- `START` holds what the host writes (R35). -/
theorem test_wrreg :
    after (step { loaded .main [] with inbox := [.write 1 0xFFFFFFFF#32] }) (fun t =>
      t.start == 0xFFFFFFFF#32 && t.pos == 0#32 && t.phase == .main) = true := by decide

/-- Session step 14: `POS` is read-only, and there is no flag. -/
theorem test_wrreg_readOnly :
    after (step { loaded .done [] with pos := 19#32, inbox := [.write 5 123#32] }) (fun t =>
      t.pos == 19#32 && !t.cmdRefused) = true := by decide

/-- A stream read above `N` faults (U8), and one without a stream (R41). -/
theorem test_read_bounds :
    readWord 2 (loaded .main [0#32]) = .error .streamIndexAboveN ∧
    readWord 0 { State.reset with n := 1#24 } = .error .streamNotValid := ⟨rfl, rfl⟩

/-- `withFetchWord` makes the very next step from reset run the word: a command, and a filler pair. -/
theorem test_withFetchWord :
    after (step (State.reset.withFetchWord 32 0x5)) (fun t => t.cmdRefused) = true ∧
    after (step (State.reset.withFetchWord 64 0xEEEEEEEEEEEEEEEE)) (fun t => t.pos == 4#32 && t.ringCi == 0) = true ∧
    after (step (State.reset.withFetchWord 96 0x000000000100000000000000)) (fun t =>
      t.pos == 3#32 && t.syncFound) = true := by decide

/-! ### Witnesses: for each statement with hypotheses, a state and operands that meet them, clause by clause -/

theorem witness_DecodeOfEncodeIsTheInstruction :
    (Instr.sync3 0#32 0x01000000#32 0#32).wf = true ∧ (Instr.scanSkip 0#32 0#32 0#32).wf = true ∧
    (Instr.data 0xEEEEEEEE#32 0#32).wf = true ∧ (Instr.cmdReserved 0x0000000E#32).wf = true ∧
    (Instr.cmdReserved 0x80000000#32).wf = true ∧ (Instr.wrreg 1 0xFFFFFFFF#32).wf = true := by decide

theorem witness_EncodeOfDecodeIsTheWords : decode ⟨.write 0, [0x00000033#32]⟩ = .ok (.run .legacy true) := by decide

/-- A word decodes to each of the seven, the reserved one at both ends of the range and by a high bit alone. -/
theorem witness_CommandsDecodeByMatchAndMask :
    decodeCommand 0x30#32 = .nop 3#2 ∧ decodeCommand 0x31#32 = .load 3#2 ∧ decodeCommand 0x32#32 = .findSync 3#2 ∧
    decodeCommand 0x33#32 = .run .legacy true ∧ decodeCommand 0x34#32 = .ringInit 3#2 ∧
    decodeCommand 0x3F#32 = .reset 3#2 ∧ decodeCommand 0x5#32 = .cmdReserved 0x5#32 ∧
    decodeCommand 0xE#32 = .cmdReserved 0xE#32 ∧ decodeCommand 0x40#32 = .cmdReserved 0x40#32 := by decide

theorem witness_StepRunsDecodedInstruction :
    fetchNext (loaded .main [7#32]) = .words ⟨.demux, [7#32, 0#32]⟩ (loaded .main [7#32]) ∧
    decode ⟨.demux, [7#32, 0#32]⟩ = .ok (.data 7#32 0#32) := by
  have h := (fetchNext_of_blockTurn (s := loaded .main [7#32]) (rest := []) (.inl ⟨rfl, rfl⟩)).trans
    (fetchStream_demux (s := loaded .main [7#32]) (.inr rfl) rfl (by decide) (by decide) (by decide))
  have h0 : (loaded .main [7#32]).word 0 = 7#32 := by decide
  have h1 : (loaded .main [7#32]).word 1 = 0#32 := by decide
  exact ⟨h.trans (by rw [show (loaded .main [7#32]).pos.toNat = 0 from rfl, h0, h1]), by decide⟩

/-- The words of a loaded stream are fixed. -/
theorem loaded_holds : (loaded .scan [1#32, 2#32]).Holds 0 1#32 ∧ (loaded .scan [1#32, 2#32]).Holds 1 2#32 ∧
    (loaded .scan [1#32, 2#32]).Holds 2 0#32 := by
  refine ⟨⟨?_, ?_⟩, ⟨?_, ?_⟩, ⟨?_, ?_⟩⟩ <;> decide

/-- The six clauses: at the scan's limit and at the last position below it, at the end of the stream and at its last
word, in the legacy mode likewise; with the block's turn listed, and with none listed. -/
theorem witness_BlockTurnRunsTheCursorWords :
    (loaded .scan [1#32, 2#32]).BlockTurn [] ∧
    ({ loaded .scan [1#32, 2#32] with inbox := [.block, .read 4] }).BlockTurn [.read 4] ∧
    (loaded .scan [1#32, 2#32]).streamValid = true ∧
    (loaded .scan [1#32]).len - 1 ≤ (loaded .scan [1#32]).pos.toNat ∧
    (loaded .scan [1#32, 2#32]).pos.toNat < (loaded .scan [1#32, 2#32]).len - 1 ∧
    (loaded .main []).len ≤ (loaded .main []).pos.toNat ∧
    (loaded .warmup [1#32]).pos.toNat < (loaded .warmup [1#32]).len ∧
    wordListed (loaded .warmup [1#32]).stream 0 = true ∧ wordListed (loaded .warmup [1#32]).stream 1 = true ∧
    (loaded .legacy []).len ≤ (loaded .legacy []).pos.toNat ∧
    (loaded .legacy [1#32]).pos.toNat < (loaded .legacy [1#32]).len ∧
    wordListed (loaded .legacy [1#32]).stream 0 = true :=
  ⟨.inl ⟨rfl, rfl⟩, .inr rfl, rfl, by decide, by decide, by decide, by decide, by decide, by decide, by decide,
    by decide, by decide⟩

theorem witness_HostTurnRunsTheAccess :
    ({ State.reset with inbox := [.read 4, .block] }).inbox = .read 4 :: [.block] ∧
    ({ State.reset with inbox := [.write 0 0xF#32] }).inbox = .write 0 0xF#32 :: [] ∧
    ({ State.reset with inbox := [.write 1 5#32] }).inbox = .write 1 5#32 :: [] ∧ 1 ≠ 0 ∧
    ({ State.reset with inbox := [.resetInput] }).inbox = .resetInput :: [] := ⟨rfl, rfl, rfl, by decide, rfl⟩

theorem witness_IdleBlockDoesNothing : State.reset.BlockTurn [] ∧ State.reset.isBusy = false := ⟨.inl ⟨rfl, rfl⟩, rfl⟩

/-- The second record is changed, the first is not, the sentinel lies above both. -/
theorem witness_PresentedBufferFreesChangedWords :
    (∀ j, j < 4 → (loaded .main [1#32, 2#32]).stream.read (4 * 0 + j)
      = (presented [1#32, 3#32])[4 * 0 + j]?) ∧
    (∃ j, j < 4 ∧ (loaded .main [1#32, 2#32]).stream.read (4 * 1 + j) ≠ (presented [1#32, 3#32])[4 * 1 + j]?) ∧
    1 < (loaded .main [1#32, 2#32]).len ∧ (loaded .main [1#32, 2#32]).len ≤ 8 / 4 :=
  ⟨by decide, ⟨0, by decide, by decide⟩, by decide, by decide⟩

/-- Every word of a loaded stream of two words is fixed. -/
theorem loaded_streamFixed (ph : Phase) (a b : Word) : (loaded ph [a, b]).StreamFixed := by
  intro k hk
  have hk : k ≤ 2 := hk
  have : k = 0 ∨ k = 1 ∨ k = 2 := by omega
  rcases this with rfl | rfl | rfl <;> rfl

/-- S3 has a triple at 0, S3b has none; the scan's bound is 1. -/
theorem witness_ScanFindsTheFirstTriple :
    (loaded .scan [0#32, 0x01000000#32]).StreamFixed ∧ (loaded .scan [0#32, 0x01000000#32]).tripleAt 0 = true ∧
    0 < (loaded .scan [0#32, 0x01000000#32]).len - 1 ∧
    (loaded .scan [0#32, 0x02000000#32]).StreamFixed ∧ (loaded .scan [0#32, 0x02000000#32]).tripleAt 0 = false ∧
    (loaded .scan [0#32, 0x02000000#32]).len - 1 = 1 :=
  ⟨loaded_streamFixed _ _ _, by decide, by decide, loaded_streamFixed _ _ _, by decide, by decide⟩

theorem witness_DataStoresMidFrame :
    State.reset.ringCi.val ≠ 15 ∧ ({ State.reset with ringCi := 14 }).ringCi.val ≠ 15 := by decide

theorem witness_DataCompletesFrame :
    ({ State.reset with ringCi := 15, ringI := 32, ringCount := 33 }).ringCi.val = 15 := by decide

theorem witness_RoutingIgnoresTheWord :
    ∃ t t', exec (.data 1#32 0#32) State.reset = .next t ∧ exec (.data 0xEEEEEEEE#32 0#32) State.reset = .next t' :=
  ⟨_, _, rfl, rfl⟩

/-- Sixteen words and the sentinel, the cursor at 0. -/
def sixteen : List Word :=
  [0x10000000#32, 0x10000111#32, 0x10000222#32, 0x10000333#32, 0x10000444#32, 0x10000555#32, 0x10000666#32,
    0x10000777#32, 0x10000888#32, 0x10000999#32, 0x10000AAA#32, 0x10000BBB#32, 0x10000CCC#32, 0x10000DDD#32,
    0x10000EEE#32, 0x10000FFF#32]

theorem witness_SixteenWordsMakeAFrame :
    (loaded .warmup sixteen).ringCi.val = 0 ∧ (loaded .warmup sixteen).pos.toNat + 16 ≤ (loaded .warmup sixteen).len ∧
    (∀ k : Fin 16, (loaded .warmup sixteen).Holds (0 + k) (⟨sixteen.toArray, rfl⟩ : Vector Word 16)[k]) ∧
    wordListed (loaded .warmup sixteen).stream 16 = true ∧
    (∀ k : Fin 16, isFillerPair ((loaded .warmup sixteen).word (0 + k)) ((loaded .warmup sixteen).word (0 + k + 1))
      = false) := by
  refine ⟨by decide, by decide, ?_, by decide, by decide⟩
  unfold State.Holds
  decide

theorem witness_PassIsTheLoopOverTheWords :
    (loaded .warmup [0xEEEEEEEE#32, 0xEEEEEEEE#32]).StreamFixed ∧
    (loaded .warmup [0xEEEEEEEE#32, 0xEEEEEEEE#32]).word 2 = 0#32 ∧
    (loaded .warmup [0xEEEEEEEE#32, 0xEEEEEEEE#32]).len = 2 := ⟨loaded_streamFixed _ _ _, by decide, by decide⟩

/-- An empty channel of two places has room for just two values. -/
theorem witness_LrecAppendsBothValues :
    chLen (loaded .legacy []) (5#4).toFin + 2 ≤ (loaded .legacy []).legacyCap := by decide

/-- Capacity 0 and capacity 1 (L-5, L-4). -/
theorem witness_LrecOverflows :
    chLen { loaded .legacy [] with legacyCap := 0 } (5#4).toFin = ({ loaded .legacy [] with legacyCap := 0 }).legacyCap ∧
    chLen { loaded .legacy [] with legacyCap := 1 } (5#4).toFin + 1
      = ({ loaded .legacy [] with legacyCap := 1 }).legacyCap := by decide

theorem witness_ModesAreSeparate :
    (∃ t, exec (.lRec 0#4 5#4 0#8 1#16) { loaded .legacy [] with legacyCap := 0 } = .next t) ∧
    (∃ t, exec .lEnd (loaded .legacy []) = .next t) ∧ (∃ t, exec (.data 1#32 2#32) (loaded .main []) = .next t) ∧
    (∃ t, exec .fillPair (loaded .main []) = .next t) ∧ (∃ t, exec .streamEnd (loaded .main []) = .next t) :=
  ⟨⟨_, rfl⟩, ⟨_, rfl⟩, ⟨_, rfl⟩, ⟨_, rfl⟩, ⟨_, rfl⟩⟩

theorem witness_LegacyEventsAreTheBuffers :
    (∀ ch : Fin 16, samplesOf ch (loaded .legacy []).trace = (loaded .legacy []).chbuf[ch]) ∧
    ∃ t, exec (.lRec 0#4 5#4 0#8 1#16) (loaded .legacy []) = .next t := ⟨by decide, exec_next _ _⟩

/-- The ends of the accepted lengths. -/
theorem witness_LoadBuildsTheStream :
    State.reset.phase = .idle ∧ (0#32).toNat % 4 = 0 ∧ (0#32).toNat ≤ 33554432 ∧
    ({ loaded .done [] with byteLen := 33554432#32 }).phase = .done ∧ (33554432#32).toNat % 4 = 0 ∧
    (33554432#32).toNat ≤ 33554432 := by decide

/-- Misaligned; aligned and just too large. -/
theorem witness_FailedLoadLeavesNoStream :
    State.reset.phase = .idle ∧ (33554433#32).toNat % 4 ≠ 0 ∧ (33554436#32).toNat % 4 = 0 ∧
    33554432 < (33554436#32).toNat := by decide

theorem witness_FindSyncStartsAScan :
    (loaded .idle []).phase = .idle ∧ (loaded .idle []).streamValid = true ∧ (loaded .done []).phase = .done := by decide

theorem witness_RunStartsARoundRobinPass :
    (loaded .done []).phase = .done ∧ (loaded .done []).streamValid = true := by decide

theorem witness_RunStartsALegacyPass :
    (loaded .idle []).phase = .idle ∧ (loaded .idle []).streamValid = true := by decide

theorem witness_RingInitMakesAFreshRing :
    State.reset.phase = .idle ∧ (loaded .done []).phase = .done ∧
    ((loaded .fault []).phase ≠ .idle ∧ (loaded .fault []).phase ≠ .done) := by decide

/-- Accepted when idle with a stream; refused busy, in FAULT, and idle without a stream. -/
theorem witness_AcceptanceTable :
    after (exec (decodeCommand 0x3#32) (loaded .idle [])) (fun t => !t.cmdRefused && t.phase == .main) = true ∧
    after (exec (decodeCommand 0x3#32) (loaded .main [])) (fun t => t.cmdRefused && t.phase == .main) = true ∧
    after (exec (decodeCommand 0x1#32) (loaded .fault [])) (fun t => t.cmdRefused && t.phase == .fault) = true ∧
    after (exec (decodeCommand 0x2#32) State.reset) (fun t => t.cmdRefused && t.phase == .idle) = true := by decide

theorem witness_ReservedCommandIsRefused :
    (5 ≤ (5#32).toNat % 16 ∧ (5#32).toNat % 16 ≤ 14) ∧ (5 ≤ (14#32).toNat % 16 ∧ (14#32).toNat % 16 ≤ 14) ∧
    (0x4F#32).toNat / 64 ≠ 0 ∧ (0x80000000#32).toNat / 64 ≠ 0 := by decide

theorem witness_ResetCommandResets : ({ loaded .main [] with inbox := [.resetInput] }).inbox = .resetInput :: [] := rfl

theorem witness_RdregReturnsTheRegister : State.reset.isBusy = false ∧ (loaded .fault []).isBusy = false := by decide

/-- A written cell in the window, not busy. -/
theorem witness_RingWindowShowsTheSlot :
    (loaded .done []).isBusy = false ∧ (3 : Fin 33).val = (0xFFFFFFFF#32).toNat % 33 ∧
    ringCell { loaded .done [] with ring := emptyRing.set 3 (Vector.replicate 16 (some 9#32)) } 3 15 = some 9#32 := by
  decide

/-- A busy block; an unwritten cell in the window. -/
theorem witness_RdregDrawsWhatIsNotFixed :
    (loaded .scan []).isBusy = true ∧ ringCell State.reset (slotOf State.reset.ringSeq.toNat) 0 = none := by decide

/-- A data register's neighbour and a number outside the table. -/
theorem witness_WrregStoresOrIsIgnored : 3 ≠ 0x00 ∧ 3 ≠ 0x01 ∧ 3 ≠ 0x02 ∧ 3 ≠ 0x0A ∧ 0x0B ≠ 0x0A := by decide

theorem witness_OnlyLoadAndResetWriteTheStream :
    (∃ t, exec (.run .legacy false) (loaded .idle []) = .next t) ∧ (Instr.run .legacy false).wf = true ∧
    (∀ x, Instr.run .legacy false ≠ .load x) ∧ ∀ x, Instr.run .legacy false ≠ .reset x :=
  ⟨exec_next _ _, rfl, by simp, by simp⟩

theorem witness_OnlyDataWritesTheRing :
    (∃ t, exec .streamEnd (loaded .main []) = .next t) ∧ Instr.streamEnd.wf = true ∧
    (∀ w next, Instr.streamEnd ≠ .data w next) ∧ (∀ x, Instr.streamEnd ≠ .ringInit x) ∧
    ∀ x, Instr.streamEnd ≠ .reset x := ⟨exec_next _ _, rfl, by simp, by simp, by simp⟩

/-- Each of the eight clauses' premises is met: an instruction that changes the piece. -/
theorem witness_FlagsAreWrittenByTheirWriters :
    after (exec (.sync3 0#32 0x01000000#32 0#32) { loaded .scan [0#32, 0x01000000#32] with syncIndex := 1#32 })
      (fun t => t.syncFound != false && t.syncIndex != 1#32) = true ∧
    after (exec .streamEnd { loaded .main [] with ringCi := 1 }) (fun t => t.truncated != false) = true ∧
    after (exec (.load 0#2) { State.reset with byteLen := 1#32 }) (fun t => t.err != 0#4) = true ∧
    after (exec (.cmdReserved 0x5#32) State.reset) (fun t => t.cmdRefused != false) = true ∧
    after (exec (.wrreg 2 7#32) State.reset) (fun t => t.byteLen != 0#32) = true ∧
    after (exec (.run .legacy false) (loaded .idle [])) (fun t => t.mode != .roundRobin) = true ∧
    after (exec (.run .roundRobin true) (loaded .idle [])) (fun t => t.afterScan != .done) = true := by decide

theorem witness_TraceOnlyGrows :
    (∃ t, exec (.load 0#2) { State.reset with byteLen := 1#32 } = .next t) ∧ (Instr.load 0#2).wf = true ∧
    (∀ x, Instr.load 0#2 ≠ .ringInit x) ∧ ∀ x, Instr.load 0#2 ≠ .reset x :=
  ⟨exec_next _ _, rfl, by simp, by simp⟩

/-- A filler pair at the last two words takes the cursor past the end. -/
theorem witness_CursorNeverMovesBack :
    (loaded .main [0xEEEEEEEE#32, 0xEEEEEEEE#32]).isBusy = true ∧
    after (step (loaded .main [0xEEEEEEEE#32, 0xEEEEEEEE#32])) (fun t => t.phase != .idle && t.pos == 4#32) = true := by
  decide

theorem witness_PhaseTransitions :
    ∃ t, exec (.data 1#32 2#32) { loaded .warmup [] with ringCi := 15, ringCount := 32 } = .next t := exec_next _ _

theorem witness_FaultIsLeftByResetOnly :
    (loaded .fault []).phase = .fault ∧ ∃ t, step (loaded .fault []) = .next t :=
  ⟨rfl, _, step_of_quiet rfl⟩

/-- A frame of the words 0 to 15. -/
def oneFrame : Frame := Vector.ofFn fun k => some (BitVec.ofNat 32 k)

/-- Warming up: one frame complete, the next one begun, one word left. -/
def warming : State :=
  { loaded .warmup [7#32] with
    mode := .roundRobin
    afterScan := .warmup
    ring := (emptyRing.set 0 oneFrame).set 1 ((Vector.replicate 16 none).set 0 (some 5#32))
    ringI := 1
    ringCi := 1
    ringCount := 1
    syncFound := true
    trace := [.frameDone 0 false oneFrame] }

theorem warming_inv : Inv warming where
  streamWf := by decide
  streamBound := by decide
  lenBound := by decide
  sentinel := fun _ => ⟨by decide, by decide⟩
  noStream := by decide
  busyLoaded := by decide
  warmupNotFull := by decide
  countIsFrames := by decide
  slotIsFrames := by decide
  begunWritten := by decide
  frameSlots := by
    intro q e h
    match q with
    | 0 => cases h; rfl
    | q + 1 => cases h
  framesWhole := by decide
  retained := by
    intro q e h _ k _
    match q with
    | 0 => cases h; revert k; decide
    | q + 1 => cases h
  errCodes := .inl rfl
  faultIsOverflow := by decide
  oneScanResult := by decide
  withinCap := by decide
  legacyMode := by decide
  roundRobinMode := by decide

theorem witness_InvariantKeptByEveryStep : Inv warming ∧ ∃ t, step warming = .next t :=
  have h := (fetchNext_of_blockTurn (s := warming) (rest := []) (.inl ⟨rfl, rfl⟩)).trans
    (fetchStream_demux (s := warming) (.inl rfl) rfl (by decide) (by decide) (by decide))
  ⟨warming_inv, _, (step_of_fetch h rfl).trans (exec_next _ _).choose_spec⟩

theorem witness_InvariantStatesNeverStop : Inv warming := warming_inv

theorem witness_EveryPassEnds :
    (loaded .scan [1#32]).streamValid = true ∧ (loaded .scan [1#32]).isBusy = true ∧ (loaded .scan [1#32]).inbox = [] := by
  decide

theorem witness_WarmupFramesAreNotValid :
    Inv warming ∧ warming.phase = .warmup ∧ (∃ t, exec (.data 7#32 0#32) warming = .next t) ∧
    ∀ e ∈ framesOf warming.trace, e.2.1 = false := ⟨warming_inv, rfl, exec_next _ _, by decide⟩

end Sys2Proof.Tests
end

/-! PROOFS of the family `00_scope.md`: the sync field, and the instruction a step runs (R11, R21, R56, R58, R77). -/

/-! ### The sync field -/

namespace Sys2Proof.Machine

theorem syncField_toNat (w : Word) : (syncField w).toNat = w.toNat / 2 ^ 24 % 8 := by
  rw [syncField, BitVec.extractLsb'_toNat, Nat.shiftRight_eq_div_pow]

theorem syncField_eq_shift_and_mask (w : Word) : (syncField w).setWidth 32 = (w >>> 24) &&& 0x7#32 := by
  apply BitVec.eq_of_toNat_eq
  have hmask : w.toNat / 2 ^ 24 &&& 7 = w.toNat / 2 ^ 24 % 8 := Nat.and_two_pow_sub_one_eq_mod _ 3
  rw [BitVec.toNat_setWidth, syncField_toNat, BitVec.toNat_and, BitVec.toNat_ushiftRight, Nat.shiftRight_eq_div_pow]
  exact (Nat.mod_eq_of_lt (by omega)).trans hmask.symm

/-- The mask `SYNC_FIELD_MASK` shifted down is the field's own mask (R11). -/
theorem syncField_eq_mask_and_shift (w : Word) : (syncField w).setWidth 32 = (w &&& 0x07000000#32) >>> 24 := by
  rw [syncField_eq_shift_and_mask, BitVec.ushiftRight_and_distrib]
  rfl

end Sys2Proof.Machine

namespace Sys2Proof.Proofs

open Sys2Proof.Machine

/-- Settles O1: the field's number is shown once, and the two forms with the mask are each reduced to the one before. -/
theorem syncFieldIsBits26To24 : Obligations.SyncFieldIsBits26To24 := fun w =>
  ⟨syncField_toNat w, syncField_eq_shift_and_mask w, syncField_eq_mask_and_shift w⟩

end Sys2Proof.Proofs

/-! ### The block's turn, row by row of the decode table (R56) -/

namespace Sys2Proof.Machine

theorem decodeDemux_eq (w0 w1 : Word) :
    decodeDemux w0 w1 = if w0 = 0xEEEEEEEE#32 ∧ w1 = 0xEEEEEEEE#32 then .fillPair else .data w0 w1 := by
  simp only [decodeDemux, isFillerPair, Config.filler, Bool.and_eq_true, beq_iff_eq]

/-- A block turn that draws nothing runs what its words decode to, in the state without that turn. -/
theorem step_of_blockTurn {s : State} {rest : List HostTurn} {e : Encoding} {i : Instr} (hb : s.BlockTurn rest)
    (hf : fetchStream { s with inbox := rest } = .words e { s with inbox := rest }) (hd : decode e = .ok i) :
    step s = exec i { s with inbox := rest } :=
  step_of_fetch ((fetchNext_of_blockTurn hb).trans hf) hd

section
variable {s : State} {rest : List HostTurn} {w0 w1 w2 : Word}

theorem step_scanEnd (hb : s.BlockTurn rest) (hp : s.phase = .scan) (h : s.len - 1 ≤ s.pos.toNat) :
    step s = exec .scanEnd { s with inbox := rest } :=
  step_of_blockTurn hb (fetchStream_scanEnd hp h) rfl

theorem step_scan (hb : s.BlockTurn rest) (hv : s.streamValid = true) (hp : s.phase = .scan)
    (h : s.pos.toNat < s.len - 1) (h0 : s.Holds s.pos.toNat w0) (h1 : s.Holds (s.pos.toNat + 1) w1)
    (h2 : s.Holds (s.pos.toNat + 2) w2) : step s = exec (decodeScan w0 w1 w2) { s with inbox := rest } := by
  obtain ⟨listed0, rfl⟩ := h0
  obtain ⟨listed1, rfl⟩ := h1
  obtain ⟨listed2, rfl⟩ := h2
  exact step_of_blockTurn hb (fetchStream_scan hp hv h listed0 listed1 listed2) rfl

theorem step_streamEnd (hb : s.BlockTurn rest) (hp : s.phase = .warmup ∨ s.phase = .main)
    (h : s.len ≤ s.pos.toNat) : step s = exec .streamEnd { s with inbox := rest } :=
  step_of_blockTurn hb (fetchStream_streamEnd hp h) rfl

theorem step_demux (hb : s.BlockTurn rest) (hv : s.streamValid = true) (hp : s.phase = .warmup ∨ s.phase = .main)
    (h : s.pos.toNat < s.len) (h0 : s.Holds s.pos.toNat w0) (h1 : s.Holds (s.pos.toNat + 1) w1) :
    step s = exec (decodeDemux w0 w1) { s with inbox := rest } := by
  obtain ⟨listed0, rfl⟩ := h0
  obtain ⟨listed1, rfl⟩ := h1
  exact step_of_blockTurn hb (fetchStream_demux hp hv h listed0 listed1) rfl

theorem step_lEnd (hb : s.BlockTurn rest) (hp : s.phase = .legacy) (h : s.len ≤ s.pos.toNat) :
    step s = exec .lEnd { s with inbox := rest } :=
  step_of_blockTurn hb (fetchStream_lEnd hp h) rfl

theorem step_legacy (hb : s.BlockTurn rest) (hv : s.streamValid = true) (hp : s.phase = .legacy)
    (h : s.pos.toNat < s.len) (h0 : s.Holds s.pos.toNat w0) :
    step s = exec (decodeRecord w0) { s with inbox := rest } := by
  obtain ⟨listed0, rfl⟩ := h0
  exact step_of_blockTurn hb (fetchStream_legacy hp hv h listed0) rfl

end

end Sys2Proof.Machine

namespace Sys2Proof.Proofs

open Sys2Proof.Machine

/-- Settles O8: for each phase the row at the bound and the rows below it, from the step lemma of each. -/
theorem blockTurnRunsTheCursorWords : Obligations.BlockTurnRunsTheCursorWords := by
  intro s rest hb hv
  refine ⟨fun hp => ⟨step_scanEnd hb hp, ?_⟩, fun hp => ⟨step_streamEnd hb hp, ?_⟩, fun hp => ⟨step_lEnd hb hp, ?_⟩⟩
  · intro w0 w1 w2 h h0 h1 h2
    exact step_scan hb hv hp h h0 h1 h2
  · intro w0 w1 h h0 h1
    rw [← decodeDemux_eq]
    exact step_demux hb hv hp h h0 h1
  · intro w h h0
    exact step_legacy hb hv hp h h0

/-- Settles O7: the law of the step `step_of_fetch`. -/
theorem stepRunsDecodedInstruction : Obligations.StepRunsDecodedInstruction := fun _ _ _ _ hf hd =>
  step_of_fetch hf hd

end Sys2Proof.Proofs

/-! ### The host's turns (R58, R107, R108, R130) -/

namespace Sys2Proof.Machine

section
variable {s : State} {rest : List HostTurn}

theorem step_read {n : Nat} (h : s.inbox = .read n :: rest) : step s = exec (.rdreg n) { s with inbox := rest } :=
  step_of_fetch (by rw [fetchNext, h]) rfl

theorem step_write {n : Nat} {v : Word} (h : s.inbox = .write n v :: rest) :
    step s = exec (decodeWrite n v) { s with inbox := rest } :=
  step_of_fetch (by rw [fetchNext, h]) rfl

/-- The reset input has the effect of the command: what `accept` clears first, the reset clears anyway. -/
theorem step_resetInput (h : s.inbox = .resetInput :: rest) (x : BitVec 2) :
    step s = exec (.reset x) { s with inbox := rest } :=
  step_of_quiet (by rw [fetchNext, h]; rfl)

end

theorem decodeWrite_cmd (v : Word) : decodeWrite 0 v = decodeCommand v := if_pos rfl

theorem decodeWrite_of_ne_cmd {n : Nat} (hn : n ≠ 0) (v : Word) : decodeWrite n v = .wrreg n v := if_neg hn

end Sys2Proof.Machine

namespace Sys2Proof.Proofs

open Sys2Proof.Machine

/-- Settles O9: one step lemma per kind of host turn; a write is a command or a WRREG by its register number. -/
theorem hostTurnRunsTheAccess : Obligations.HostTurnRunsTheAccess := by
  intro s rest
  refine ⟨fun n h => step_read h, fun v h => ?_, fun n v hn h => ?_, fun h => step_resetInput h 0#2⟩
  · rw [step_write h, decodeWrite_cmd]
  · rw [step_write h, decodeWrite_of_ne_cmd hn]

/-- Settles O16: FILLPAIR is `advance` by `FILLER_ADVANCE`, which is 4 (R10). -/
theorem fillPairResult : Obligations.FillPairResult := fun s =>
  calc exec .fillPair s = .next (advance Config.fillerAdvance s) := rfl
    _ = .next { s with pos := s.pos + 4#32 } := rfl

end Sys2Proof.Proofs

/-! PROOFS of the family `10_state.md`: what each instruction does to the state, the writers of each piece of state,
and the invariant (R22 to R40). -/

/-! ### What an instruction does, said once -/

namespace Sys2Proof.Machine

/-- The condition under which an instruction is performed and not refused (R102, R106). -/
def State.Accepts (s : State) : Instr → Prop
  | .load _ | .ringInit _ => s.phase = .idle ∨ s.phase = .done
  | .findSync _ | .run _ _ => (s.phase = .idle ∨ s.phase = .done) ∧ s.streamValid = true
  | .cmdReserved _ => False
  | _ => True

/-- `Effect i s t`: the instruction `i` can turn `s` into `t`. One constructor per outcome of `exec`; `exec_effect` says
that there is no other, but for a write to `CMD`, which is a command. -/
inductive Effect (s : State) : Instr → State → Prop
  | scanEnd : Effect s .scanEnd { s with
      syncIndex := s.pos, syncFound := false, syncNotFound := true
      phase := match s.afterScan with
        | .done => .done
        | .warmup => if s.ringCount.val = 33 then .main else .warmup }
  | sync3 (w0 w1 w2 : Word) : Effect s (.sync3 w0 w1 w2) { s with
      syncIndex := s.pos, syncFound := true, syncNotFound := false, pos := s.pos + 3#32
      phase := match s.afterScan with
        | .done => .done
        | .warmup => if s.ringCount.val = 33 then .main else .warmup }
  | scanSkip (w0 w1 w2 : Word) : Effect s (.scanSkip w0 w1 w2) { s with pos := s.pos + 1#32 }
  | streamEnd : Effect s .streamEnd { s with truncated := decide (s.ringCi.val ≠ 0), phase := .done }
  | fillPair : Effect s .fillPair { s with pos := s.pos + 4#32 }
  | dataMid (w next : Word) (hci : s.ringCi.val < 15) : Effect s (.data w next) { storeSample w s with
      ringCi := s.ringCi + 1, pos := s.pos + 1#32 }
  | dataLast (w next : Word) (hci : s.ringCi.val = 15) : Effect s (.data w next) { storeSample w s with
      ringCi := 0, ringI := s.ringI + 1, ringCount := countUp s.ringCount, pos := s.pos + 1#32
      phase := if s.phase = .warmup ∧ (countUp s.ringCount).val = 33 then .main else s.phase
      trace := s.trace ++ [.frameDone s.ringI (s.phase == .main) (storeSample w s).ring[s.ringI]] }
  | lEnd : Effect s .lEnd { s with phase := .done }
  | lRec (hi tag : BitVec 4) (b2 : Byte) (v0 v1 : Half)
      (room0 : chLen s tag.toFin ≠ s.legacyCap) (room1 : chLen s tag.toFin + 1 ≠ s.legacyCap) :
      Effect s (.lRec hi tag b2 v0) (advance 1 (appendSample tag.toFin v1 (appendSample tag.toFin v0 s.draw)))
  | lRecFull (hi tag : BitVec 4) (b2 : Byte) (v0 : Half) (full : chLen s tag.toFin = s.legacyCap) :
      Effect s (.lRec hi tag b2 v0) { s.draw with
        err := 6#4, trace := s.trace ++ [.fault 6#4], phase := .fault }
  | lRecFills (hi tag : BitVec 4) (b2 : Byte) (v0 : Half)
      (room0 : chLen s tag.toFin ≠ s.legacyCap) (full : chLen s tag.toFin + 1 = s.legacyCap) :
      Effect s (.lRec hi tag b2 v0) { appendSample tag.toFin v0 s.draw with
        err := 6#4, trace := s.trace ++ [.sample16 tag.toFin v0] ++ [.fault 6#4], phase := .fault }
  | refused (i : Instr) (no : ¬ s.Accepts i) : Effect s i { s with cmdRefused := true }
  | nop (x : BitVec 2) : Effect s (.nop x) { s with cmdRefused := false }
  | loadFails (x : BitVec 2) (c : BitVec 4) (hc : c = 2#4 ∨ c = 3#4) (ok : s.phase = .idle ∨ s.phase = .done) :
      Effect s (.load x) { s with
        stream := [], n := 0#24, streamValid := false, err := c, trace := s.trace ++ [.fault c], phase := .idle
        pos := 0#32, syncFound := false, syncNotFound := false, cmdRefused := false }
  | load (x : BitVec 2) (aligned : s.byteLen.toNat % 4 = 0) (fits : s.byteLen.toNat ≤ Config.maxBytes)
      (ok : s.phase = .idle ∨ s.phase = .done) :
      Effect s (.load x) { s with
        stream := Memory.ofStream s.hostBuf (s.byteLen.toNat / 4), n := BitVec.ofNat 24 (s.byteLen.toNat / 4)
        streamValid := true, err := 0#4, phase := .idle
        pos := 0#32, syncFound := false, syncNotFound := false, cmdRefused := false }
  | findSync (x : BitVec 2) (ok : s.phase = .idle ∨ s.phase = .done) (loaded : s.streamValid = true) :
      Effect s (.findSync x) { s with
        pos := s.start, syncFound := false, syncNotFound := false, afterScan := .done, phase := .scan
        cmdRefused := false }
  | runRoundRobin (sync : Bool) (ok : s.phase = .idle ∨ s.phase = .done) (loaded : s.streamValid = true) :
      Effect s (.run .roundRobin sync) { s with
        mode := .roundRobin, pos := s.start, syncFound := false, syncNotFound := false, truncated := false
        afterScan := if sync then .warmup else s.afterScan, phase := if sync then .scan else .main
        cmdRefused := false }
  | runLegacy (sync : Bool) (ok : s.phase = .idle ∨ s.phase = .done) (loaded : s.streamValid = true) :
      Effect s (.run .legacy sync) { s with
        mode := .legacy, pos := s.start, syncFound := false, syncNotFound := false, truncated := false
        chbuf := emptyChannels, phase := .legacy, cmdRefused := false }
  | ringInit (x : BitVec 2) (ok : s.phase = .idle ∨ s.phase = .done) : Effect s (.ringInit x) { s with
      ring := emptyRing, ringI := 0, ringCi := 0, ringCount := 0, truncated := false, trace := [], phase := .idle
      cmdRefused := false }
  | reset (x : BitVec 2) : Effect s (.reset x) (resetBlock s)
  | rdreg (n : Nat) (v : Word) (d : Nat) : Effect s (.rdreg n) { s with rdData := v, draws := d }
  | wrreg (n : Nat) (v start byteLen ringSeq : Word) : Effect s (.wrreg n v) { s with
      start := start, byteLen := byteLen, ringSeq := ringSeq }

theorem next_congr {s t : State} (h : s = t) : Host.Outcome.next (φ := Fault) (ρ := Refusal) s = .next t :=
  congrArg Host.Outcome.next h

/-- STREAMEND reports an unfinished frame, or that there is none (R79). -/
theorem execStreamEnd_eq (s : State) :
    execStreamEnd s = .next { s with truncated := decide (s.ringCi.val ≠ 0), phase := .done } := by
  by_cases h : s.ringCi.val = 0 <;> simp [execStreamEnd, h, raise_truncatedFrame]

theorem execData_effect (w next : Word) (s : State) :
    ∃ t, exec (.data w next) s = .next t ∧ Effect s (.data w next) t := by
  rcases nextChannel_cases (storeSample w s) with ⟨hci, h⟩ | ⟨hci, h, -⟩
  · exact ⟨_, next_congr (congrArg (advance 1) (h.trans (completeFrame_eq _))), .dataLast w next hci⟩
  · exact ⟨_, next_congr (congrArg (advance 1) h), .dataMid w next hci⟩

/-- The length of a buffer after an append to it (R98). -/
theorem chLen_appendSample (ch c : Fin 16) (v : Half) (s : State) :
    chLen (appendSample ch v s) c = if c = ch then chLen s c + 1 else chLen s c := by
  unfold chLen
  rw [appendSample_get]
  split <;> simp

theorem channelFull_iff (s : State) (ch : Fin 16) : channelFull s ch = true ↔ chLen s ch = s.legacyCap := by
  simp [channelFull]

theorem execLRec_effect (hi tag : BitVec 4) (b2 : Byte) (v0 : Half) (s : State) :
    ∃ t, exec (.lRec hi tag b2 v0) s = .next t ∧ Effect s (.lRec hi tag b2 v0) t := by
  have full0 : channelFull s.draw tag.toFin = true ↔ chLen s tag.toFin = s.legacyCap := channelFull_iff _ _
  have full1 : channelFull (appendSample tag.toFin v0 s.draw) tag.toFin = true ↔
      chLen s tag.toFin + 1 = s.legacyCap := by
    rw [channelFull_iff, chLen_appendSample, if_pos rfl]
    rfl
  simp only [exec, execLRec, channelOfTag, full0, full1]
  by_cases h0 : chLen s tag.toFin = s.legacyCap
  · exact ⟨_, if_pos h0, .lRecFull hi tag b2 v0 h0⟩
  · by_cases h1 : chLen s tag.toFin + 1 = s.legacyCap
    · exact ⟨_, (if_neg h0).trans (if_pos h1), .lRecFills hi tag b2 v0 h0 h1⟩
    · exact ⟨_, (if_neg h0).trans (if_neg h1), .lRec hi tag b2 v0 _ h0 h1⟩

theorem execLoad_effect (x : BitVec 2) (s : State) : ∃ t, exec (.load x) s = .next t ∧ Effect s (.load x) t := by
  rcases whenIdle_cases loadEffect s with ⟨ok, h⟩ | ⟨busy, h⟩
  · have loads : ∀ {t}, checkedLoad { s with cmdRefused := false } = t → exec (.load x) s =
        .next { t with phase := .idle, pos := 0#32, syncFound := false, syncNotFound := false } := by
      rintro _ rfl
      exact next_congr h
    rcases checkedLoad_cases { s with cmdRefused := false } with ⟨-, hc⟩ | ⟨-, -, hc⟩ | ⟨aligned, fits, hc, -⟩
    · exact ⟨_, loads hc, .loadFails x 2#4 (.inl rfl) ok⟩
    · exact ⟨_, loads hc, .loadFails x 3#4 (.inr rfl) ok⟩
    · exact ⟨_, loads hc, .load x aligned fits ok⟩
  · exact ⟨_, next_congr h, .refused _ (by simpa [State.Accepts] using busy)⟩

theorem not_accepts_of_busy_or_unloaded {s : State} (h : (s.phase ≠ .idle ∧ s.phase ≠ .done) ∨ s.streamValid = false) :
    ¬ ((s.phase = .idle ∨ s.phase = .done) ∧ s.streamValid = true) := by
  rintro ⟨ok, loaded⟩
  rcases h with ⟨h1, h2⟩ | h
  · exact ok.elim h1 h2
  · exact absurd loaded (by simp [h])

theorem execRun_effect (mode : Mode) (sync : Bool) (s : State) :
    ∃ t, exec (.run mode sync) s = .next t ∧ Effect s (.run mode sync) t := by
  rcases whenIdleAndLoaded_cases (runEffect mode sync) s with ⟨⟨ok, loaded⟩, h⟩ | ⟨no, h⟩
  · cases mode with
    | roundRobin =>
      refine ⟨_, next_congr (h.trans ?_), .runRoundRobin sync ok loaded⟩
      cases sync <;> rfl
    | legacy => exact ⟨_, next_congr h, .runLegacy sync ok loaded⟩
  · exact ⟨_, next_congr h, .refused _ (not_accepts_of_busy_or_unloaded no)⟩

theorem execWrreg_effect {n : Nat} (hn : n ≠ 0) (v : Word) (s : State) :
    ∃ t, exec (.wrreg n v) s = .next t ∧ Effect s (.wrreg n v) t := by
  rcases execWrreg_cases hn v s with h | h | h | h
  · exact ⟨_, h, .wrreg n v s.start s.byteLen s.ringSeq⟩
  · exact ⟨_, h, .wrreg n v v s.byteLen s.ringSeq⟩
  · exact ⟨_, h, .wrreg n v s.start v s.ringSeq⟩
  · exact ⟨_, h, .wrreg n v s.start s.byteLen v⟩

/-- What `exec` answers is one of the effects of the instruction. -/
theorem exec_effect (i : Instr) (s : State) (hi : ∀ v, i ≠ .wrreg 0 v) : ∃ t, exec i s = .next t ∧ Effect s i t := by
  cases i with
  | scanEnd => exact ⟨_, next_congr (enterAfterScan_eq _), .scanEnd⟩
  | sync3 w0 w1 w2 => exact ⟨_, next_congr (enterAfterScan_eq _), .sync3 w0 w1 w2⟩
  | scanSkip w0 w1 w2 => exact ⟨_, rfl, .scanSkip w0 w1 w2⟩
  | streamEnd => exact ⟨_, execStreamEnd_eq s, .streamEnd⟩
  | fillPair => exact ⟨_, rfl, .fillPair⟩
  | data w next => exact execData_effect w next s
  | lEnd => exact ⟨_, rfl, .lEnd⟩
  | lRec upper tag b2 v0 => exact execLRec_effect upper tag b2 v0 s
  | nop x => exact ⟨_, rfl, .nop x⟩
  | load x => exact execLoad_effect x s
  | findSync x =>
    rcases whenIdleAndLoaded_cases findSyncEffect s with ⟨⟨ok, loaded⟩, h⟩ | ⟨no, h⟩
    · exact ⟨_, next_congr h, .findSync x ok loaded⟩
    · exact ⟨_, next_congr h, .refused _ (not_accepts_of_busy_or_unloaded no)⟩
  | run mode sync => exact execRun_effect mode sync s
  | ringInit x =>
    rcases whenIdle_cases ringInitEffect s with ⟨ok, h⟩ | ⟨busy, h⟩
    · exact ⟨_, next_congr h, .ringInit x ok⟩
    · exact ⟨_, next_congr h, .refused _ (by simpa [State.Accepts] using busy)⟩
  | reset x => exact ⟨_, rfl, .reset x⟩
  | cmdReserved v => exact ⟨_, rfl, .refused _ id⟩
  | rdreg n =>
    rcases execRdreg_cases n s with ⟨v, -, h⟩ | ⟨-, h⟩
    · exact ⟨_, h, .rdreg n v s.draws⟩
    · exact ⟨_, h, .rdreg n _ _⟩
  | wrreg n v => exact execWrreg_effect (fun hn => hi v (by rw [hn])) v s

theorem effect_of_exec {i : Instr} {s t : State} (hi : ∀ v, i ≠ .wrreg 0 v) (h : exec i s = .next t) :
    Effect s i t := by
  obtain ⟨t', h', he⟩ := exec_effect i s hi
  obtain rfl : t' = t := by
    rw [h] at h'
    injection h' with h'
    exact h'.symm
  exact he

theorem ne_cmdWrite_of_wf {i : Instr} (h : i.wf = true) (v : Word) : i ≠ .wrreg 0 v := by
  rintro rfl
  exact absurd h (by simp [Instr.wf])

end Sys2Proof.Machine

/-! ### Who writes what: in each proof the cases named are the writers, and in all others the field is not written -/

namespace Sys2Proof.Machine

/-! Every command word is the word of its instruction (R58). -/

section
variable (x : BitVec 2)

theorem nop_of_word : decodeCommand (commandWord x 0#4) = .nop x := by
  revert x
  decide

theorem load_of_word : decodeCommand (commandWord x 1#4) = .load x := by
  revert x
  decide

theorem findSync_of_word : decodeCommand (commandWord x 2#4) = .findSync x := by
  revert x
  decide

theorem ringInit_of_word : decodeCommand (commandWord x 4#4) = .ringInit x := by
  revert x
  decide

end

theorem run_of_word (m : Mode) (b : Bool) : decodeCommand (commandWord (runOptions m b) 3#4) = .run m b := by
  cases m <;> cases b <;> decide

theorem cmdReserved_of_word {v : Word} (h : (Instr.cmdReserved v).wf = true) : decodeCommand v = .cmdReserved v := by
  have hv : commandOp v = .reserved := by simpa [Instr.wf] using h
  simp [decodeCommand, hv]

/-- Only a command can be refused (R103). -/
theorem command_of_not_accepts {s : State} {i : Instr} (hwf : i.wf = true) (no : ¬ s.Accepts i) :
    ∃ v, i = decodeCommand v := by
  cases i with
  | load x => exact ⟨_, (load_of_word x).symm⟩
  | findSync x => exact ⟨_, (findSync_of_word x).symm⟩
  | run m b => exact ⟨_, (run_of_word m b).symm⟩
  | ringInit x => exact ⟨_, (ringInit_of_word x).symm⟩
  | cmdReserved v => exact ⟨v, (cmdReserved_of_word hwf).symm⟩
  | _ => exact absurd trivial no

namespace Effect

variable {i : Instr} {s t : State}

theorem stream_unchanged (h : Effect s i t) (hload : ∀ x, i ≠ .load x) (hreset : ∀ x, i ≠ .reset x) :
    t.stream = s.stream ∧ t.n = s.n ∧ t.streamValid = s.streamValid := by
  cases h with
  | loadFails x | load x => exact absurd rfl (hload x)
  | reset x => exact absurd rfl (hreset x)
  | _ => exact ⟨rfl, rfl, rfl⟩

theorem ring_unchanged (h : Effect s i t) (hdata : ∀ w next, i ≠ .data w next) (hinit : ∀ x, i ≠ .ringInit x)
    (hreset : ∀ x, i ≠ .reset x) :
    t.ring = s.ring ∧ t.ringI = s.ringI ∧ t.ringCi = s.ringCi ∧ t.ringCount = s.ringCount := by
  cases h with
  | dataMid w next | dataLast w next => exact absurd rfl (hdata w next)
  | ringInit x => exact absurd rfl (hinit x)
  | reset x => exact absurd rfl (hreset x)
  | _ => exact ⟨rfl, rfl, rfl, rfl⟩

theorem trace_grows (h : Effect s i t) (hinit : ∀ x, i ≠ .ringInit x) (hreset : ∀ x, i ≠ .reset x) :
    ∃ events, t.trace = s.trace ++ events := by
  cases h with
  | ringInit x => exact absurd rfl (hinit x)
  | reset x => exact absurd rfl (hreset x)
  | dataLast | lRecFull | loadFails => exact ⟨_, rfl⟩
  | lRec | lRecFills => exact ⟨_, List.append_assoc _ _ _⟩
  | _ => exact ⟨[], (List.append_nil _).symm⟩

theorem syncFlags_writers (h : Effect s i t) (hreset : ∀ x, i ≠ .reset x)
    (hne : t.syncFound ≠ s.syncFound ∨ t.syncNotFound ≠ s.syncNotFound) :
    i = .scanEnd ∨ (∃ a b c, i = .sync3 a b c) ∨ (∃ x, i = .load x) ∨ (∃ x, i = .findSync x) ∨ ∃ m b, i = .run m b := by
  cases h with
  | scanEnd => exact .inl rfl
  | sync3 => exact .inr (.inl ⟨_, _, _, rfl⟩)
  | loadFails | load => exact .inr (.inr (.inl ⟨_, rfl⟩))
  | findSync => exact .inr (.inr (.inr (.inl ⟨_, rfl⟩)))
  | runRoundRobin | runLegacy => exact .inr (.inr (.inr (.inr ⟨_, _, rfl⟩)))
  | reset x => exact absurd rfl (hreset x)
  | _ => exact (hne.elim (· rfl) (· rfl)).elim

theorem truncated_writers (h : Effect s i t) (hreset : ∀ x, i ≠ .reset x) (hne : t.truncated ≠ s.truncated) :
    i = .streamEnd ∨ (∃ m b, i = .run m b) ∨ ∃ x, i = .ringInit x := by
  cases h with
  | streamEnd => exact .inl rfl
  | runRoundRobin | runLegacy => exact .inr (.inl ⟨_, _, rfl⟩)
  | ringInit => exact .inr (.inr ⟨_, rfl⟩)
  | reset x => exact absurd rfl (hreset x)
  | _ => exact absurd rfl hne

theorem syncIndex_writers (h : Effect s i t) (hreset : ∀ x, i ≠ .reset x) (hne : t.syncIndex ≠ s.syncIndex) :
    i = .scanEnd ∨ ∃ a b c, i = .sync3 a b c := by
  cases h with
  | scanEnd => exact .inl rfl
  | sync3 => exact .inr ⟨_, _, _, rfl⟩
  | reset x => exact absurd rfl (hreset x)
  | _ => exact absurd rfl hne

theorem err_writers (h : Effect s i t) (hreset : ∀ x, i ≠ .reset x) (hne : t.err ≠ s.err) :
    (∃ x, i = .load x) ∨ ∃ hi tag b2 v0, i = .lRec hi tag b2 v0 := by
  cases h with
  | loadFails | load => exact .inl ⟨_, rfl⟩
  | lRecFull | lRecFills => exact .inr ⟨_, _, _, _, rfl⟩
  | reset x => exact absurd rfl (hreset x)
  | _ => exact absurd rfl hne

theorem cmdRefused_writers (h : Effect s i t) (hwf : i.wf = true) (hreset : ∀ x, i ≠ .reset x)
    (hne : t.cmdRefused ≠ s.cmdRefused) : ∃ v, i = decodeCommand v := by
  cases h with
  | refused i no => exact command_of_not_accepts hwf no
  | nop x => exact ⟨_, (nop_of_word x).symm⟩
  | loadFails x | load x => exact ⟨_, (load_of_word x).symm⟩
  | findSync x => exact ⟨_, (findSync_of_word x).symm⟩
  | runRoundRobin b | runLegacy b => exact ⟨_, (run_of_word _ b).symm⟩
  | ringInit x => exact ⟨_, (ringInit_of_word x).symm⟩
  | reset x => exact absurd rfl (hreset x)
  | _ => exact absurd rfl hne

theorem hostRegisters_writers (h : Effect s i t) (hreset : ∀ x, i ≠ .reset x)
    (hne : t.start ≠ s.start ∨ t.byteLen ≠ s.byteLen ∨ t.ringSeq ≠ s.ringSeq) : ∃ n v, i = .wrreg n v := by
  cases h with
  | wrreg => exact ⟨_, _, rfl⟩
  | reset x => exact absurd rfl (hreset x)
  | _ => exact (hne.elim (· rfl) (·.elim (· rfl) (· rfl))).elim

theorem mode_writers (h : Effect s i t) (hreset : ∀ x, i ≠ .reset x) (hne : t.mode ≠ s.mode) : ∃ m b, i = .run m b := by
  cases h with
  | runRoundRobin | runLegacy => exact ⟨_, _, rfl⟩
  | reset x => exact absurd rfl (hreset x)
  | _ => exact absurd rfl hne

theorem afterScan_writers (h : Effect s i t) (hreset : ∀ x, i ≠ .reset x) (hne : t.afterScan ≠ s.afterScan) :
    (∃ x, i = .findSync x) ∨ ∃ m b, i = .run m b := by
  cases h with
  | findSync => exact .inl ⟨_, rfl⟩
  | runRoundRobin => exact .inr ⟨_, _, rfl⟩
  | reset x => exact absurd rfl (hreset x)
  | _ => exact absurd rfl hne

end Effect

end Sys2Proof.Machine

namespace Sys2Proof.Proofs

open Sys2Proof.Machine

/-- Settles O44: of all effects only those of LOAD and RESET write the stream. -/
theorem onlyLoadAndResetWriteTheStream : Obligations.OnlyLoadAndResetWriteTheStream := by
  intro i s t h hwf hload hreset
  obtain ⟨hstream, hn, hv⟩ := (effect_of_exec (ne_cmdWrite_of_wf hwf) h).stream_unchanged hload hreset
  exact ⟨fun a => by rw [hstream], hn, hv⟩

/-- Settles O45: of all effects only those of DATA, RING_INIT and RESET write the ring. -/
theorem onlyDataWritesTheRing : Obligations.OnlyDataWritesTheRing := by
  intro i s t h hwf hdata hinit hreset
  obtain ⟨hring, hcursors⟩ := (effect_of_exec (ne_cmdWrite_of_wf hwf) h).ring_unchanged hdata hinit hreset
  exact ⟨fun slot k => by rw [ringCell, hring, ringCell], hcursors⟩

/-- Settles O46: for each field the effects that write it. -/
theorem flagsAreWrittenByTheirWriters : Obligations.FlagsAreWrittenByTheirWriters := by
  intro i s t h hwf hreset
  have he := effect_of_exec (ne_cmdWrite_of_wf hwf) h
  exact ⟨he.syncFlags_writers hreset, he.truncated_writers hreset, he.syncIndex_writers hreset, he.err_writers hreset,
    he.cmdRefused_writers hwf hreset, he.hostRegisters_writers hreset, he.mode_writers hreset,
    he.afterScan_writers hreset⟩

/-- Settles O47: every effect but those of RING_INIT and RESET appends to the trace. -/
theorem traceOnlyGrows : Obligations.TraceOnlyGrows := fun _ _ _ h hwf hinit hreset =>
  (effect_of_exec (ne_cmdWrite_of_wf hwf) h).trace_grows hinit hreset

end Sys2Proof.Proofs

/-! ### What a turn does, by the effect of its instruction -/

namespace Sys2Proof

/-- The instructions decoded at the cursor; the others are the host's accesses (R56, R58). -/
def Instr.isStream : Instr → Bool
  | .scanEnd | .sync3 _ _ _ | .scanSkip _ _ _ | .streamEnd | .fillPair | .data _ _ | .lEnd | .lRec _ _ _ _ => true
  | _ => false

end Sys2Proof

namespace Sys2Proof.Machine

theorem decodeCommand_not_stream (v : Word) : (decodeCommand v).isStream = false := by
  unfold decodeCommand
  split <;> rfl

theorem decodeCommand_ne_wrreg (v : Word) (n : Nat) (u : Word) : decodeCommand v ≠ .wrreg n u := by
  unfold decodeCommand
  split <;> exact Instr.noConfusion

/-- A write to `CMD` is a command, so what it decodes to is no WRREG of number 0 (R58). -/
theorem decodeWrite_ne_cmdWrite (n : Nat) (v u : Word) : decodeWrite n v ≠ .wrreg 0 u := by
  by_cases hn : n = 0
  · rw [hn, decodeWrite_cmd]
    exact decodeCommand_ne_wrreg v 0 u
  · rw [decodeWrite_of_ne_cmd hn]
    rintro ⟨⟩
    exact hn rfl

theorem decodeWrite_not_stream (n : Nat) (v : Word) : (decodeWrite n v).isStream = false := by
  unfold decodeWrite
  split
  · exact decodeCommand_not_stream v
  · rfl

theorem commandOp_of_decodeCommand_reset {v : Word} {x : BitVec 2} (h : decodeCommand v = .reset x) :
    commandOp v = .reset := by
  unfold decodeCommand at h
  split at h <;> first | assumption | cases h

theorem cmd_of_decodeWrite_reset {n : Nat} {v : Word} {x : BitVec 2} (h : decodeWrite n v = .reset x) :
    n = 0 ∧ commandOp v = .reset := by
  by_cases hn : n = 0
  · rw [hn, decodeWrite_cmd] at h
    exact ⟨hn, commandOp_of_decodeCommand_reset h⟩
  · rw [decodeWrite_of_ne_cmd hn] at h
    cases h

/-- Only a busy block decodes at the cursor (R26, R56). -/
theorem State.busy_of_canDecode {s : State} {i : Instr} (h : s.canDecode i) : s.isBusy = true := by
  have busy : ∀ {p}, s.phase = p → p.busy = true → s.isBusy = true := fun hp hb => (congrArg Phase.busy hp).trans hb
  cases i with
  | scanEnd | sync3 | scanSkip => exact busy h.1 rfl
  | streamEnd | fillPair | data => exact h.1.elim (busy · rfl) (busy · rfl)
  | lEnd | lRec => exact busy h.1 rfl
  | _ => exact h.elim

theorem State.ne_cmdWrite_of_canDecode {s : State} {i : Instr} (h : s.canDecode i) (v : Word) : i ≠ .wrreg 0 v := by
  rintro rfl
  exact h

/-- Every step takes the turn off the schedule, or presents a buffer or resets besides, or has the effect of an
instruction, at its decode condition if it is one of the stream; RESET comes from a write to `CMD`. -/
theorem step_effect {s t : State} (h : step s = .next t) :
    (∃ rest, t = { s with inbox := rest }) ∨
    (∃ bytes rest, t = presentBuffer bytes { s with inbox := rest }) ∨
    (∃ rest, s.inbox = .resetInput :: rest ∧ t = resetBlock { s with inbox := rest }) ∨
    ∃ i rest d, Effect { s with inbox := rest, draws := d } i t ∧ (i.isStream = true → s.canDecode i) ∧
      ∀ x, i = .reset x → ∃ v, s.inbox = .write 0 v :: rest ∧ commandOp v = .reset := by
  rcases step_cases h with ⟨rest, -, -, ht⟩ | ⟨rest, i, d, -, hc, he⟩ | ⟨bytes, rest, -, ht⟩ | ⟨n, rest, -, he⟩ |
    ⟨n, v, rest, hin, he⟩ | ⟨rest, hin, ht⟩
  · exact .inl ⟨rest, ht⟩
  · refine .inr (.inr (.inr ⟨i, rest, d, effect_of_exec (State.ne_cmdWrite_of_canDecode hc) he, fun _ => hc, ?_⟩))
    rintro x rfl
    exact hc.elim
  · exact .inr (.inl ⟨bytes, rest, ht⟩)
  · refine .inr (.inr (.inr ⟨.rdreg n, rest, s.draws, effect_of_exec (fun v => Instr.noConfusion) he, ?_, ?_⟩))
    · intro hs
      cases hs
    · rintro x ⟨⟩
  · refine .inr (.inr (.inr ⟨decodeWrite n v, rest, s.draws, effect_of_exec (decodeWrite_ne_cmdWrite n v) he, ?_, ?_⟩))
    · intro hs
      exact absurd hs (by simp [decodeWrite_not_stream])
    · intro x hx
      obtain ⟨rfl, hv⟩ := cmd_of_decodeWrite_reset hx
      exact ⟨v, hin, hv⟩
  · exact .inr (.inr (.inl ⟨rest, hin, ht⟩))

/-- What every accepted command finds (R102): a block that is not busy, and not in phase FAULT. -/
theorem rest_of_accepting {s : State} (ok : s.phase = .idle ∨ s.phase = .done) :
    s.isBusy = false ∧ s.phase ≠ .fault := by
  rcases ok with hp | hp <;> simp [State.isBusy, Phase.busy, hp]

/-! ### The cursor of a pass (R24, R25) -/

/-- Below a bound on the number of words the cursor does not wrap (R25). -/
theorem toNat_add_of_lt_len {p : Word} {n : BitVec 24} {k : Nat} (h : p.toNat < n.toNat) (hk : k ≤ 4) :
    (p + BitVec.ofNat 32 k).toNat = p.toNat + k := by
  have hn := n.isLt
  rw [BitVec.toNat_add, BitVec.toNat_ofNat]
  omega

theorem Effect.cursor_forward {s t : State} {i : Instr} (h : Effect s i t) (hc : i.isStream = true → s.canDecode i)
    (hb : s.isBusy = true) (hidle : t.phase ≠ .idle) :
    s.pos.toNat ≤ t.pos.toNat ∧ t.pos.toNat ≤ max s.pos.toNat (s.len + 3) := by
  have moved : ∀ k, k ≤ 4 → s.pos.toNat < s.len → s.pos.toNat ≤ (s.pos + BitVec.ofNat 32 k).toNat ∧
      (s.pos + BitVec.ofNat 32 k).toNat ≤ max s.pos.toNat (s.len + 3) := by
    intro k hk hlt
    rw [toNat_add_of_lt_len hlt hk]
    omega
  cases h with
  | sync3 => exact moved 3 (by decide) (Nat.lt_of_lt_of_le (hc rfl).2 (Nat.sub_le _ _))
  | scanSkip => exact moved 1 (by decide) (Nat.lt_of_lt_of_le (hc rfl).2 (Nat.sub_le _ _))
  | fillPair => exact moved 4 le_rfl (hc rfl).2
  | dataMid | dataLast | lRec => exact moved 1 (by decide) (hc rfl).2
  | loadFails _ _ _ ok | load _ _ _ ok | findSync _ ok | runRoundRobin _ ok | runLegacy _ ok | ringInit _ ok =>
    exact absurd ((rest_of_accepting ok).1.symm.trans hb) nofun
  | reset => exact absurd rfl hidle
  | _ => exact ⟨le_rfl, le_max_left _ _⟩

/-! ### Phase FAULT (R105, R123) -/

theorem Effect.fault_frozen {s t : State} {i : Instr} (h : Effect s i t) (hs : s.phase = .fault)
    (hhost : i.isStream = false) (hreset : ∀ x, i ≠ .reset x) :
    t.phase = .fault ∧ t.pos = s.pos ∧ t.err = s.err ∧ t.trace = s.trace ∧ t.ring = s.ring ∧ t.chbuf = s.chbuf ∧
      t.n = s.n ∧ t.streamValid = s.streamValid := by
  cases h with
  | refused | nop | rdreg | wrreg => exact ⟨hs, rfl, rfl, rfl, rfl, rfl, rfl, rfl⟩
  | loadFails _ _ _ ok | load _ _ _ ok | findSync _ ok | runRoundRobin _ ok | runLegacy _ ok | ringInit _ ok =>
    exact absurd hs (rest_of_accepting ok).2
  | reset x => exact absurd rfl (hreset x)
  | _ => cases hhost

/-! ### The phase (R146) -/

theorem Effect.data_phase {s t : State} {w next : Word} (h : Effect s (.data w next) t) :
    t.phase = if s.phase = .warmup ∧ s.ringCi.val = 15 ∧ t.ringCount.val = 33 then .main else s.phase := by
  cases h with
  | dataMid _ _ hci => exact (if_neg (by omega)).symm
  | dataLast _ _ hci => simp only [hci, true_and]
  | refused _ no => exact absurd trivial no

theorem Effect.lRec_phase {s t : State} {hi tag : BitVec 4} {b2 : Byte} {v0 : Half}
    (h : Effect s (.lRec hi tag b2 v0) t) :
    t.phase = if chLen s tag.toFin = s.legacyCap ∨ chLen s tag.toFin + 1 = s.legacyCap then .fault else s.phase := by
  cases h with
  | lRec _ _ _ _ _ room0 room1 => exact (if_neg (not_or.2 ⟨room0, room1⟩)).symm
  | lRecFull _ _ _ _ full => exact (if_pos (.inl full)).symm
  | lRecFills _ _ _ _ _ full => exact (if_pos (.inr full)).symm
  | refused _ no => exact absurd trivial no

end Sys2Proof.Machine

namespace Sys2Proof.Proofs

open Sys2Proof.Machine

/-- Settles O48: a stream instruction moves the cursor on by at most 4 from below its bound, a busy block refuses every
command that would set it, and no other turn moves it. -/
theorem cursorNeverMovesBack : Obligations.CursorNeverMovesBack := by
  intro s t hb h hidle
  rcases step_effect h with ⟨rest, rfl⟩ | ⟨bytes, rest, rfl⟩ | ⟨rest, -, rfl⟩ | ⟨i, rest, d, he, hc, -⟩
  · exact ⟨le_rfl, le_max_left _ _⟩
  · exact ⟨le_rfl, le_max_left _ _⟩
  · exact absurd rfl hidle
  · exact he.cursor_forward hc hb hidle

/-- Settles O50: in phase FAULT no stream instruction can be decoded, and no command but RESET and NOP is accepted. -/
theorem faultIsLeftByResetOnly : Obligations.FaultIsLeftByResetOnly := by
  intro s t hs h
  rcases step_effect h with ⟨rest, rfl⟩ | ⟨bytes, rest, rfl⟩ | ⟨rest, hin, -⟩ | ⟨i, rest, d, he, hc, hr⟩
  · exact .inr (.inr ⟨hs, rfl, rfl, rfl, rfl, rfl, rfl, rfl⟩)
  · exact .inr (.inr ⟨hs, rfl, rfl, rfl, rfl, rfl, rfl, rfl⟩)
  · exact .inr (.inl ⟨rest, hin⟩)
  · by_cases hreset : ∃ x, i = .reset x
    · obtain ⟨x, hx⟩ := hreset
      obtain ⟨v, hin⟩ := hr x hx
      exact .inl ⟨v, rest, hin⟩
    · have hhost : i.isStream = false := by
        by_contra hstream
        have hb := State.busy_of_canDecode (hc (by simpa using hstream))
        simp [State.isBusy, Phase.busy, hs] at hb
      exact .inr (.inr (he.fault_frozen hs hhost (not_exists.1 hreset)))

/-- Settles O49: the effect of each instruction, and its phase; a refused one leaves the phase, its
condition failing. -/
theorem phaseTransitions : Obligations.PhaseTransitions := by
  intro i s t h
  by_cases hi : ∀ v, i ≠ .wrreg 0 v
  · have he := effect_of_exec hi h
    cases he with
    | dataMid w next hci => exact (Effect.dataMid w next hci).data_phase
    | dataLast w next hci => exact (Effect.dataLast w next hci).data_phase
    | lRec | lRecFull | lRecFills => exact Effect.lRec_phase (effect_of_exec hi h)
    | refused i no =>
      cases i with
      | load | ringInit | findSync | run => exact (if_neg no).symm
      | cmdReserved => rfl
      | _ => exact absurd trivial no
    | loadFails _ _ _ ok | load _ _ _ ok | ringInit _ ok => exact (if_pos ok).symm
    | findSync _ ok loaded => exact (if_pos ⟨ok, loaded⟩).symm
    | runRoundRobin sync ok loaded =>
      refine Eq.trans ?_ (if_pos ⟨ok, loaded⟩).symm
      cases sync <;> rfl
    | runLegacy _ ok loaded => exact (if_pos ⟨ok, loaded⟩).symm
    | wrreg => exact fun _ => rfl
    | _ => rfl
  · push Not at hi
    obtain ⟨v, rfl⟩ := hi
    exact fun hn => absurd rfl hn

end Sys2Proof.Proofs

/-! ### The invariant, kept by each kind of change (R39) -/

namespace Sys2Proof.Machine

/-! #### The stream -/

theorem wordListed_iff (m : Memory) (k : Nat) :
    wordListed m k = true ↔ ∀ j, j < 4 → (m.read (4 * k + j)).isSome = true := by
  simp [wordListed]

/-- A word is fixed, and is what it was, where its four bytes read as before. -/
theorem State.Holds.of_read_eq {s t : State} {k : Nat} {w : Word} (h : s.Holds k w)
    (hr : ∀ j, j < 4 → t.stream.read (4 * k + j) = s.stream.read (4 * k + j)) : t.Holds k w := by
  obtain ⟨hlisted, hword⟩ := h
  constructor
  · rw [wordListed_iff] at hlisted ⊢
    intro j hj
    rw [hr j hj]
    exact hlisted j hj
  · rw [← hword]
    simp only [wordAt, byteOr, hr, Nat.reduceLT]

/-- The word after the data of a loaded stream is the sentinel (R63). -/
theorem holds_sentinel_of_ofStream {t : State} {bytes : List Byte} (ht : t.stream = Memory.ofStream bytes t.len) :
    t.Holds t.len Config.sentinel := by
  have hr : ∀ j, j < 4 → t.stream.read (4 * t.len + j) = some 0#8 := by
    intro j hj
    rw [ht, Memory.read_ofStream, if_neg (by omega), if_pos (by omega)]
  constructor
  · exact (wordListed_iff _ _).2 fun j hj => by rw [hr j hj, Option.isSome_some]
  · simp only [wordAt, byteOr, hr, Nat.reduceLT, Option.getD_some]
    rfl

/-- A change of the stream alone keeps the invariant if it keeps the parts about the stream (R39 d, R45, R119). -/
theorem Inv.with_stream {s : State} (h : Inv s) {m : Memory} {n : BitVec 24} {v : Bool} (wf : m.wf)
    (bound : ∀ c ∈ m, c.1 < 4 * n.toNat + 4) (small : n.toNat ≤ Config.maxWords)
    (sentinel : v = true → { s with stream := m, n := n, streamValid := v }.Holds n.toNat Config.sentinel)
    (absent : v = false → m = [] ∧ n.toNat = 0) (busy : s.isBusy = true → v = true) :
    Inv { s with stream := m, n := n, streamValid := v } :=
  { h with
    streamWf := wf, streamBound := bound, lenBound := small, sentinel := sentinel
    noStream := absent, busyLoaded := busy }

theorem Inv.without_stream {s : State} (h : Inv s) (hb : s.isBusy = false) :
    Inv { s with stream := [], n := 0#24, streamValid := false } :=
  h.with_stream .nil nofun (Nat.zero_le _) nofun (fun _ => ⟨rfl, rfl⟩) (by simp [hb])

/-- A load of an accepted length keeps the invariant (R63). -/
theorem Inv.with_loaded_stream {s : State} (h : Inv s) (fits : s.byteLen.toNat ≤ Config.maxBytes) :
    Inv { s with
      stream := Memory.ofStream s.hostBuf (s.byteLen.toNat / 4), n := BitVec.ofNat 24 (s.byteLen.toNat / 4)
      streamValid := true } := by
  have hmax : Config.maxBytes = 33554432 := rfl
  have hn : (BitVec.ofNat 24 (s.byteLen.toNat / 4)).toNat = s.byteLen.toNat / 4 := by
    rw [BitVec.toNat_ofNat]
    omega
  refine h.with_stream (Memory.ofStream_wf _ _) ?_ ?_ (fun _ => ?_) nofun (fun _ => rfl)
  · rw [hn]
    exact Memory.ofStream_bound _ _
  · rw [hn, show Config.maxWords = 8388608 from rfl]
    omega
  · exact holds_sentinel_of_ofStream (congrArg (Memory.ofStream s.hostBuf) hn.symm)

/-- The host's new buffer frees words of the data only, never the sentinel (R51). -/
theorem Inv.present {s : State} (h : Inv s) (bytes : List Byte) : Inv (presentBuffer bytes s) := by
  have kept : Inv { s with stream := (presentBuffer bytes s).stream } := by
    refine h.with_stream (presentBuffer_wf bytes h.streamWf) (fun c hc => ?_)
      h.lenBound (fun hv => (h.sentinel hv).of_read_eq fun j hj => ?_) (fun hv => ?_) h.busyLoaded
    · rw [presentBuffer_stream] at hc
      exact h.streamBound c (Memory.keep_subset hc)
    · simp only [presentBuffer_stream, Memory.read_keep]
      exact if_pos (by simp; omega)
    · obtain ⟨hm, hn⟩ := h.noStream hv
      exact ⟨by rw [presentBuffer_stream, hm]; rfl, hn⟩
  exact { kept with }

/-! #### What the invariant does not speak of -/

/-- The cursor, the host's registers and its side, and the flags that go with no other part. -/
theorem Inv.of_unread {s : State} (h : Inv s) {pos syncIndex start byteLen ringSeq rdData : Word}
    {truncated cmdRefused : Bool} {hostBuf : List Byte} {inbox : List HostTurn} {draws : Nat} :
    Inv { s with
      pos := pos, syncIndex := syncIndex, start := start, byteLen := byteLen, ringSeq := ringSeq, rdData := rdData
      truncated := truncated, cmdRefused := cmdRefused, hostBuf := hostBuf, inbox := inbox, draws := draws } :=
  { h with }

/-! #### The phase, the flags and the channel buffers -/

theorem Inv.with_scan_result {s : State} (h : Inv s) (found notFound : Bool)
    (one : ¬ (found = true ∧ notFound = true)) : Inv { s with syncFound := found, syncNotFound := notFound } :=
  { h with oneScanResult := one }

/-- A change of phase other than to or from FAULT, with what the invariant asks of the new phase. -/
theorem Inv.with_phase {s : State} (h : Inv s) (p : Phase) (a : AfterScan) (m : Mode) (here : s.phase ≠ .fault)
    (there : p ≠ .fault) (loaded : p.busy = true → s.streamValid = true) (warm : p = .warmup → s.ringCount.val ≠ 33)
    (legacy : p = .legacy → m = .legacy)
    (roundRobin : p = .warmup ∨ p = .main ∨ (p = .scan ∧ a = .warmup) → m = .roundRobin) :
    Inv { s with phase := p, afterScan := a, mode := m } :=
  { h with
    busyLoaded := loaded, warmupNotFull := warm, legacyMode := legacy, roundRobinMode := roundRobin
    faultIsOverflow := iff_of_false there (mt h.faultIsOverflow.2 here) }

/-- A pass that is over, or a block made idle, meets what the invariant asks of a phase. -/
theorem Inv.with_rest {s : State} (h : Inv s) {p : Phase} (hp : p = .idle ∨ p = .done) (here : s.phase ≠ .fault) :
    Inv { s with phase := p } := by
  rcases hp with rfl | rfl <;> exact h.with_phase _ s.afterScan s.mode here nofun nofun nofun nofun (by simp)

/-- An error code of a LOAD, with its event, in a phase other than FAULT (R113, R119). -/
theorem Inv.with_err {s : State} (h : Inv s) {c : BitVec 4} {events : List Event} (hs : s.phase ≠ .fault)
    (hc : c = 0#4 ∨ c = 2#4 ∨ c = 3#4) (hf : framesOf events = framesOf s.trace) :
    Inv { s with err := c, trace := events } := by
  refine h.of_same_core rfl rfl rfl rfl rfl rfl rfl hf h.busyLoaded h.warmupNotFull ?_ (iff_of_false hs ?_)
    h.oneScanResult h.withinCap h.legacyMode h.roundRobinMode
  · simp only
    tauto
  · rintro rfl
    revert hc
    decide

/-- `ChannelOverflow` (R99, R119). -/
theorem Inv.with_overflow {s : State} (h : Inv s) {events : List Event} (hf : framesOf events = framesOf s.trace) :
    Inv { s with err := 6#4, trace := events, phase := .fault } :=
  h.of_same_core rfl rfl rfl rfl rfl rfl rfl hf nofun nofun (.inr (.inr (.inr rfl))) (iff_of_true rfl rfl)
    h.oneScanResult h.withinCap nofun (by simp)

/-- An append to a channel buffer that is not full (R36, R98). -/
theorem Inv.append {s : State} (h : Inv s) {ch : Fin 16} (v : Half) (room : chLen s ch ≠ s.legacyCap) :
    Inv (appendSample ch v s) := by
  refine h.of_same_core rfl rfl rfl rfl rfl rfl rfl (by simp [framesOf]) h.busyLoaded h.warmupNotFull h.errCodes
    h.faultIsOverflow h.oneScanResult (fun c => ?_) h.legacyMode h.roundRobinMode
  rw [chLen_appendSample, appendSample_legacyCap]
  have := h.withinCap c
  split
  · rename_i hch
    rw [hch] at this ⊢
    omega
  · exact this

theorem chLen_of_emptyChannels {s : State} (h : s.chbuf = emptyChannels) (ch : Fin 16) : chLen s ch = 0 := by
  rw [chLen, h, emptyChannels_get, List.length_nil]

theorem Inv.with_empty_channels {s : State} (h : Inv s) : Inv { s with chbuf := emptyChannels } :=
  { h with withinCap := fun ch => (chLen_of_emptyChannels rfl ch).trans_le (Nat.zero_le _) }

/-! #### The ring -/

/-- The parts of the invariant about the ring and the frames of the trace (R39 g and h, R80, R90, R92). -/
structure RingInv (s : State) : Prop where
  countIsFrames : s.ringCount.val = min s.frames 33
  slotIsFrames : s.ringI = slotOf s.frames
  begunWritten : ∀ k : Fin 16, k < s.ringCi → (ringCell s s.ringI k).isSome = true
  frameSlots : ∀ q e, (framesOf s.trace)[q]? = some e → e.1 = slotOf q
  framesWhole : ∀ e ∈ framesOf s.trace, ∀ k : Fin 16, (e.2.2[k]).isSome = true
  retained : ∀ q e, (framesOf s.trace)[q]? = some e → s.frames ≤ q + 33 →
    ∀ k : Fin 16, (slotOf q = s.ringI → s.ringCi ≤ k) → ringCell s (slotOf q) k = e.2.2[k]

theorem Inv.ringInv {s : State} (h : Inv s) : RingInv s := { h with }

theorem Inv.with_ring {s : State} (h : Inv s) {ring : Vector Frame 33} {i : Fin 33} {ci : Fin 16} {count : Fin 34}
    {trace : List Event}
    (hr : RingInv { s with ring := ring, ringI := i, ringCi := ci, ringCount := count, trace := trace })
    (warm : s.phase = .warmup → count.val ≠ 33) :
    Inv { s with ring := ring, ringI := i, ringCi := ci, ringCount := count, trace := trace } :=
  { hr, h with warmupNotFull := warm }

/-- A ring nothing has been written to, and no frame in the trace (R40, R86). -/
theorem RingInv.fresh {s : State} (hi : s.ringI = 0) (hci : s.ringCi = 0) (hcount : s.ringCount = 0)
    (htrace : s.trace = []) : RingInv s where
  countIsFrames := by simp [State.frames, htrace, framesOf, hcount]
  slotIsFrames := by simp [State.frames, htrace, framesOf, hi, slotOf]
  begunWritten := by simp [hci]
  frameSlots := by simp [htrace, framesOf]
  framesWhole := by simp [htrace, framesOf]
  retained := by simp [htrace, framesOf]

/-- The cell at the cursors after a store, and all others (R78). -/
theorem ringCell_storeSample_at (w : Word) (s : State) : ringCell (storeSample w s) s.ringI s.ringCi = some w := by
  simp [ringCell_storeSample]

theorem ringCell_storeSample_ne {w : Word} {s : State} {slot : Fin 33} {k : Fin 16}
    (h : slot = s.ringI → k ≠ s.ringCi) : ringCell (storeSample w s) slot k = ringCell s slot k := by
  rw [ringCell_storeSample, if_neg (fun ⟨h1, h2⟩ => h h1 h2)]

/-- The channels up to the one just stored are written (R39 h). -/
theorem RingInv.written_after_store {s : State} (h : RingInv s) (w : Word) {k : Fin 16} (hk : k ≤ s.ringCi) :
    (ringCell (storeSample w s) s.ringI k).isSome = true := by
  rcases hk.eq_or_lt with rfl | hk
  · rw [ringCell_storeSample_at, Option.isSome_some]
  · rw [ringCell_storeSample_ne fun _ => hk.ne]
    exact h.begunWritten k hk

/-- DATA below channel 15 (R29, R78). -/
theorem RingInv.store_mid {s : State} (h : RingInv s) (w : Word) (hci : s.ringCi.val < 15) :
    RingInv { storeSample w s with ringCi := s.ringCi + 1 } := by
  have hnext : (s.ringCi + 1).val = s.ringCi.val + 1 := Fin.val_add_one_of_lt' (by omega)
  exact {
    countIsFrames := h.countIsFrames
    slotIsFrames := h.slotIsFrames
    begunWritten := fun k hk => h.written_after_store w (Fin.le_def.2 (by
      have : k.val < (s.ringCi + 1).val := hk
      omega))
    frameSlots := h.frameSlots
    framesWhole := h.framesWhole
    retained := by
      intro q e hq hlast k hk
      have past : slotOf q = s.ringI → s.ringCi < k := fun hslot => Fin.lt_def.2 (by
        have : (s.ringCi + 1).val ≤ k.val := hk hslot
        omega)
      exact (ringCell_storeSample_ne fun hslot => (past hslot).ne').trans
        (h.retained q e hq hlast k fun hslot => (past hslot).le) }

/-- Slots repeat after 33 frames, not before (R80). -/
theorem slotOf_ne_of_lt {q f : Nat} (hlt : q < f) (hnear : f < q + 33) : slotOf q ≠ slotOf f := by
  intro h
  have := congrArg Fin.val h
  simp only [slotOf] at this
  omega

theorem slotOf_succ (f : Nat) : slotOf (f + 1) = slotOf f + 1 := by
  apply Fin.ext
  simp only [slotOf, Fin.val_add, Fin.val_one]
  omega

/-- DATA at channel 15 (R80): the frame the event carries is the slot's, and the slot begun next is the one whose frame
leaves the ring (R90). -/
theorem RingInv.store_last {s : State} (h : RingInv s) (w : Word) (valid : Bool) (hci : s.ringCi.val = 15) :
    RingInv { storeSample w s with
      ringCi := 0, ringI := s.ringI + 1, ringCount := countUp s.ringCount
      trace := s.trace ++ [.frameDone s.ringI valid (storeSample w s).ring[s.ringI]] } := by
  have entry : ∀ q e, (framesOf (s.trace ++ [.frameDone s.ringI valid (storeSample w s).ring[s.ringI]]))[q]? = some e →
      (q < s.frames ∧ (framesOf s.trace)[q]? = some e) ∨
      (q = s.frames ∧ e = (s.ringI, valid, (storeSample w s).ring[s.ringI])) := by
    intro q e hq
    rw [framesOf_append, List.getElem?_append] at hq
    split at hq
    · rename_i hlt
      exact .inl ⟨hlt, hq⟩
    · rename_i hge
      obtain ⟨hlen, he⟩ := List.getElem?_eq_some_iff.1 hq
      simp only [framesOf, List.length_singleton] at hlen
      refine .inr ⟨by simp only [State.frames]; omega, ?_⟩
      simpa [framesOf, hlen] using he.symm
  have hF : ∀ t : State, t.trace = s.trace ++ [.frameDone s.ringI valid (storeSample w s).ring[s.ringI]] →
      t.frames = s.frames + 1 := by
    intro t ht
    simp [State.frames, ht, framesOf]
  exact {
    countIsFrames := by
      rw [hF _ rfl]
      simp only [countUp_val, h.countIsFrames]
      omega
    slotIsFrames := by
      rw [hF _ rfl, slotOf_succ, ← h.slotIsFrames]
    begunWritten := fun k hk => absurd hk (Fin.not_lt_zero k)
    frameSlots := by
      intro q e hq
      rcases entry q e hq with ⟨-, hold⟩ | ⟨rfl, rfl⟩
      · exact h.frameSlots q e hold
      · exact h.slotIsFrames
    framesWhole := by
      intro e he k
      obtain ⟨q, hq⟩ := List.mem_iff_getElem?.1 he
      rcases entry q e hq with ⟨-, hold⟩ | ⟨-, rfl⟩
      · exact h.framesWhole e (List.mem_of_getElem? hold) k
      · exact h.written_after_store w (Fin.le_def.2 (by omega))
    retained := by
      intro q e hq hlast k _
      rw [hF _ rfl] at hlast
      rcases entry q e hq with ⟨hlt, hold⟩ | ⟨rfl, rfl⟩
      · have hslot : slotOf q ≠ s.ringI := h.slotIsFrames ▸ slotOf_ne_of_lt hlt (by omega)
        exact (ringCell_storeSample_ne fun hs => absurd hs hslot).trans
          (h.retained q e hold (by omega) k fun hs => absurd hs hslot)
      · rw [← h.slotIsFrames]
        rfl }

/-! #### Reset -/

theorem inv_resetBlock (s : State) : Inv (resetBlock s) :=
  { RingInv.fresh (s := resetBlock s) rfl rfl rfl rfl with
    streamWf := .nil
    streamBound := nofun
    lenBound := Nat.zero_le _
    sentinel := nofun
    noStream := fun _ => ⟨rfl, rfl⟩
    busyLoaded := nofun
    warmupNotFull := nofun
    errCodes := .inl rfl
    faultIsOverflow := iff_of_false nofun (show (0#4 : BitVec 4) ≠ 6#4 by decide)
    oneScanResult := nofun
    withinCap := fun ch => (chLen_of_emptyChannels rfl ch).trans_le (Nat.zero_le _)
    legacyMode := nofun
    roundRobinMode := fun _ => rfl }

end Sys2Proof.Machine

/-! #### Each instruction, and the step -/

namespace Sys2Proof.Machine

variable {s : State}

/-- Where a scan leads (R37, R67, R69, R75): to DONE, or to the pass whose mode RUN latched. -/
theorem Inv.after_scan (h : Inv s) (hp : s.phase = .scan) :
    Inv { s with phase := match s.afterScan with
      | .done => .done
      | .warmup => if s.ringCount.val = 33 then .main else .warmup } := by
  have here : s.phase ≠ .fault := by simp [hp]
  have loaded : s.streamValid = true := h.busyLoaded (by simp [State.isBusy, Phase.busy, hp])
  cases ha : s.afterScan with
  | done => exact h.with_phase .done .done s.mode here nofun nofun nofun nofun (by simp)
  | warmup =>
    have mode : s.mode = .roundRobin := h.roundRobinMode (.inr (.inr ⟨hp, ha⟩))
    simp only
    split
    · exact h.with_phase .main .warmup s.mode here nofun (fun _ => loaded) nofun nofun (fun _ => mode)
    · rename_i notFull
      exact h.with_phase .warmup .warmup s.mode here nofun (fun _ => loaded) (fun _ => notFull) nofun (fun _ => mode)

/-- The end of the warm-up (R75), whenever it comes. -/
theorem Inv.end_warmup (h : Inv s) (full : Prop) [Decidable full] :
    Inv { s with phase := if s.phase = .warmup ∧ full then .main else s.phase } := by
  split
  · rename_i hw
    obtain ⟨hp, -⟩ := hw
    exact h.with_phase .main s.afterScan s.mode (by simp [hp]) nofun
      (fun _ => h.busyLoaded (by simp [State.isBusy, Phase.busy, hp])) nofun nofun (fun _ => h.roundRobinMode (.inl hp))
  · exact h

/-- DATA at channel 15 (R80): the phase is settled before the ring is full, so that no state of the way is a WARMUP
with a full ring. -/
theorem Inv.complete_frame (h : Inv s) (w : Word) (valid : Bool) (hci : s.ringCi.val = 15) :
    Inv { storeSample w s with
      ringCi := 0, ringI := s.ringI + 1, ringCount := countUp s.ringCount
      phase := if s.phase = .warmup ∧ (countUp s.ringCount).val = 33 then .main else s.phase
      trace := s.trace ++ [.frameDone s.ringI valid (storeSample w s).ring[s.ringI]] } := by
  have h' := h.end_warmup ((countUp s.ringCount).val = 33)
  refine h'.with_ring (h'.ringInv.store_last w valid hci) fun hp full => ?_
  have still := fun hw : s.phase = .warmup => (if_pos ⟨hw, full⟩).symm.trans hp
  by_cases hw : s.phase = .warmup
  · exact absurd (still hw) nofun
  · exact hw ((if_neg fun hc => hw hc.1).symm.trans hp)

theorem Inv.of_effect {t : State} {i : Instr} (h : Inv s) (he : Effect s i t)
    (hc : i.isStream = true → s.canDecode i) : Inv t := by
  have here : i.isStream = true → s.phase ≠ .fault := fun hi hp => by
    have := State.busy_of_canDecode (hc hi)
    simp [State.isBusy, Phase.busy, hp] at this
  cases he with
  | scanEnd => exact ((h.after_scan (hc rfl).1).with_scan_result false true nofun).of_unread
  | sync3 => exact ((h.after_scan (hc rfl).1).with_scan_result true false nofun).of_unread
  | streamEnd => exact (h.with_rest (.inr rfl) (here rfl)).of_unread
  | lEnd => exact h.with_rest (.inr rfl) (here rfl)
  | dataMid w _ hci => exact (h.with_ring (h.ringInv.store_mid w hci) h.warmupNotFull).of_unread
  | dataLast w _ hci => exact (h.complete_frame w _ hci).of_unread
  | lRec _ tag _ v0 v1 room0 room1 =>
    have drawn : Inv s.draw := h.of_unread
    refine ((drawn.append v0 room0).append v1 ?_).of_unread
    rw [chLen_appendSample, if_pos rfl]
    exact room1
  | lRecFull =>
    have drawn : Inv s.draw := h.of_unread
    exact drawn.with_overflow (by simp [framesOf])
  | lRecFills _ tag _ v0 room0 =>
    have drawn : Inv s.draw := h.of_unread
    exact (drawn.append v0 room0).with_overflow (by simp [framesOf])
  | loadFails _ c code ok =>
    obtain ⟨notBusy, notFault⟩ := rest_of_accepting ok
    exact ((((h.without_stream notBusy).with_err notFault (.inr code) (by simp [framesOf])).with_rest
      (.inl rfl) notFault).with_scan_result false false nofun).of_unread
  | load _ _ fits ok =>
    obtain ⟨-, notFault⟩ := rest_of_accepting ok
    exact ((((h.with_loaded_stream fits).with_err notFault (.inl rfl) rfl).with_rest
      (.inl rfl) notFault).with_scan_result false false nofun).of_unread
  | findSync _ ok loaded =>
    exact ((h.with_phase .scan .done s.mode (rest_of_accepting ok).2 nofun (fun _ => loaded) nofun nofun
      (by simp)).with_scan_result false false nofun).of_unread
  | runRoundRobin sync ok loaded =>
    refine ((h.with_phase (if sync then .scan else .main) (if sync then .warmup else s.afterScan) .roundRobin
      (rest_of_accepting ok).2 ?_ (fun _ => loaded) ?_ ?_ (fun _ => rfl)).with_scan_result false false
      nofun).of_unread <;> cases sync <;> nofun
  | runLegacy _ ok loaded =>
    exact ((h.with_empty_channels.with_phase .legacy s.afterScan .legacy (rest_of_accepting ok).2 nofun
      (fun _ => loaded) nofun (fun _ => rfl)
      (by simp)).with_scan_result false false nofun).of_unread
  | ringInit _ ok =>
    exact ((h.with_ring (RingInv.fresh rfl rfl rfl rfl) nofun).with_rest (.inl rfl) (rest_of_accepting ok).2).of_unread
  | reset => exact inv_resetBlock s
  | _ => exact h.of_unread

end Sys2Proof.Machine

namespace Sys2Proof.Proofs

open Sys2Proof.Machine

/-- Settles O52: the machine after reset is what RESET makes of it. -/
theorem invariantAtReset : Obligations.InvariantAtReset := inv_resetBlock State.reset

/-- Settles O53: the effect of each instruction keeps the invariant where the instruction can occur, and so do the turns
that run none. -/
theorem invariantKeptByEveryStep : Obligations.InvariantKeptByEveryStep := by
  intro s t h hstep
  rcases step_effect hstep with ⟨rest, rfl⟩ | ⟨bytes, rest, rfl⟩ | ⟨rest, -, rfl⟩ | ⟨i, rest, d, he, hc, -⟩
  · exact h.of_unread
  · exact Inv.present h.of_unread bytes
  · exact inv_resetBlock _
  · exact Inv.of_effect h.of_unread he hc

end Sys2Proof.Proofs

/-! ### DATA: the cell it stores, and the frame it completes (R78, R80) -/

namespace Sys2Proof.Proofs

open Sys2Proof.Machine

/-- Settles O17: below channel 15 the effect of DATA is `dataMid`, and its ring is that of the store. -/
theorem dataStoresMidFrame : Obligations.DataStoresMidFrame := by
  intro w next s hci
  obtain ⟨t, hexec, he⟩ := exec_effect (.data w next) s nofun
  refine ⟨t, hexec, ?_⟩
  cases he with
  | dataMid _ _ hlt =>
    exact ⟨rfl, Fin.val_add_one_of_lt' (by omega), fun slot k => ringCell_storeSample w s slot k, fun _ => rfl⟩
  | dataLast _ _ hlast => exact absurd hlast hci
  | refused _ no => exact absurd trivial no

/-- Settles O18: at channel 15 the effect of DATA is `dataLast`; the samples are the slot of the ring
after the store. -/
theorem dataCompletesFrame : Obligations.DataCompletesFrame := by
  intro w next s hci
  obtain ⟨t, hexec, he⟩ := exec_effect (.data w next) s nofun
  refine ⟨t, (storeSample w s).ring[s.ringI], hexec, ?_⟩
  cases he with
  | dataMid _ _ hlt => exact absurd hci hlt.ne
  | dataLast =>
    exact ⟨rfl, Fin.val_add _ _, countUp_val _, rfl,
      fun slot k => ringCell_storeSample w s slot k, fun _ => rfl, fun _ => rfl⟩
  | refused _ no => exact absurd trivial no

end Sys2Proof.Proofs

/-! ### The commands by match and mask (R58) -/

namespace Sys2Proof.Machine

/-- A `CMD` value is its three fields (R33). -/
theorem command_fields (v : Word) : commandReservedField v ++ (commandOptions v ++ commandOpField v) = v := by
  have low : commandOptions v ++ commandOpField v = v.extractLsb' 0 6 :=
    BitVec.extractLsb'_append_extractLsb'_eq_extractLsb' rfl
  rw [low]
  exact (BitVec.extractLsb'_append_extractLsb'_eq_extractLsb' rfl).trans BitVec.extractLsb'_eq_self

theorem append_eq_append_iff {m n : Nat} {a b : BitVec m} {c d : BitVec n} : a ++ c = b ++ d ↔ a = b ∧ c = d := by
  constructor
  · intro h
    have upper := congrArg (BitVec.extractLsb' n m) h
    have lower := congrArg (BitVec.extractLsb' 0 n) h
    rw [BitVec.extractLsb'_append_eq_left, BitVec.extractLsb'_append_eq_left] at upper
    rw [BitVec.extractLsb'_append_eq_right, BitVec.extractLsb'_append_eq_right] at lower
    exact ⟨upper, lower⟩
  · rintro ⟨rfl, rfl⟩
    rfl

/-- The mask of R58 keeps the reserved bits and `OP`: a value matches a pattern without reserved bits when it has none
and its `OP` is the pattern's. -/
theorem and_mask_eq_iff (v : Word) (op : BitVec 4) :
    v &&& 0xFFFFFFCF#32 = 0#26 ++ (0#2 ++ op) ↔ commandReservedField v = 0#26 ∧ commandOpField v = op := by
  have hmask : (0xFFFFFFCF#32 : Word) = BitVec.allOnes 26 ++ (0#2 ++ BitVec.allOnes 4) := by decide
  conv_lhs => rw [← command_fields v, hmask]
  rw [BitVec.and_append, BitVec.and_append, append_eq_append_iff, append_eq_append_iff, BitVec.and_allOnes,
    BitVec.and_allOnes, BitVec.and_zero]
  simp only [true_and]

/-- The `OP` of a command (R33, R58). -/
def CommandOp.number : CommandOp → Option (BitVec 4)
  | .nop => some 0#4
  | .load => some 1#4
  | .findSync => some 2#4
  | .run => some 3#4
  | .ringInit => some 4#4
  | .reset => some 15#4
  | .reserved => none

theorem commandOp_of_reserved_bit {v : Word} (h : commandReservedField v ≠ 0#26) : commandOp v = .reserved := if_pos h

/-- The commands are the values that match their pattern under the mask (R58). -/
theorem commandOp_eq_iff_matches (v : Word) {c : CommandOp} {op : BitVec 4} {pattern : Word} (hc : c.number = some op)
    (hp : 0#26 ++ (0#2 ++ op) = pattern) : commandOp v = c ↔ v &&& 0xFFFFFFCF#32 = pattern := by
  rw [← hp, and_mask_eq_iff]
  by_cases h : commandReservedField v = 0#26
  · rw [commandOp, if_neg (not_not.2 h), h]
    generalize commandOpField v = field
    cases c <;> cases hc <;> revert field <;> decide
  · rw [commandOp_of_reserved_bit h]
    refine iff_of_false ?_ fun hf => h hf.1
    rintro rfl
    cases hc

/-- The reserved values: a bit of 31:6, or an `OP` that is no command's (R106). -/
theorem commandOp_eq_reserved_iff (v : Word) :
    commandOp v = .reserved ↔ (5 ≤ v.toNat % 16 ∧ v.toNat % 16 ≤ 14) ∨ v.toNat / 64 ≠ 0 := by
  have hop : (commandOpField v).toNat = v.toNat % 16 := by
    rw [commandOpField, BitVec.extractLsb'_toNat, Nat.shiftRight_zero]
  have hres : (commandReservedField v).toNat = v.toNat / 64 := by
    rw [commandReservedField, BitVec.extractLsb'_toNat, Nat.shiftRight_eq_div_pow]
    omega
  rw [← hop, ← hres]
  by_cases h : commandReservedField v = 0#26
  · rw [commandOp, if_neg (not_not.2 h), h]
    generalize commandOpField v = field
    revert field
    decide
  · rw [commandOp_of_reserved_bit h]
    exact iff_of_true rfl (.inr fun hz => h (BitVec.eq_of_toNat_eq hz))

/-- What is decoded is the command the value asks for. -/
theorem decodeCommand_iff (v : Word) :
    ((∃ x, decodeCommand v = .nop x) ↔ commandOp v = .nop) ∧
    ((∃ x, decodeCommand v = .load x) ↔ commandOp v = .load) ∧
    ((∃ x, decodeCommand v = .findSync x) ↔ commandOp v = .findSync) ∧
    ((∃ m b, decodeCommand v = .run m b) ↔ commandOp v = .run) ∧
    ((∃ x, decodeCommand v = .ringInit x) ↔ commandOp v = .ringInit) ∧
    ((∃ x, decodeCommand v = .reset x) ↔ commandOp v = .reset) ∧
    (decodeCommand v = .cmdReserved v ↔ commandOp v = .reserved) := by
  unfold decodeCommand
  cases commandOp v <;> simp

end Sys2Proof.Machine

namespace Sys2Proof.Proofs

open Sys2Proof.Machine

/-- Settles O5: what is decoded is the command, and the command is its pattern under the mask. -/
theorem commandsDecodeByMatchAndMask : Obligations.CommandsDecodeByMatchAndMask := by
  intro v
  obtain ⟨hnop, hload, hfind, hrun, hinit, hreset, hreserved⟩ := decodeCommand_iff v
  exact ⟨hnop.trans (commandOp_eq_iff_matches v rfl rfl), hload.trans (commandOp_eq_iff_matches v rfl rfl),
    hfind.trans (commandOp_eq_iff_matches v rfl rfl), hrun.trans (commandOp_eq_iff_matches v rfl rfl),
    hinit.trans (commandOp_eq_iff_matches v rfl rfl), hreset.trans (commandOp_eq_iff_matches v rfl rfl),
    hreserved.trans (commandOp_eq_reserved_iff v)⟩

end Sys2Proof.Proofs

/-! ### Reset, and the block that is not busy (R40, R129) -/

namespace Sys2Proof.Machine

theorem atReset_resetBlock (s : State) : (resetBlock s).AtReset :=
  ⟨rfl, rfl, rfl, rfl, rfl, rfl, rfl, rfl, rfl, rfl, emptyRing_get, rfl, rfl, rfl, rfl, rfl, rfl, rfl, rfl,
    emptyChannels_get, rfl, fun _ => rfl⟩

theorem step_of_idle {s : State} {rest : List HostTurn} (hb : s.BlockTurn rest) (h : s.isBusy = false) :
    step s = .next { s with inbox := rest } :=
  step_of_quiet ((fetchNext_of_blockTurn hb).trans (fetchStream_quiet h))

end Sys2Proof.Machine

namespace Sys2Proof.Proofs

open Sys2Proof.Machine

/-- Settles O10: the fetch of a block that is not busy brings no words. -/
theorem idleBlockDoesNothing : Obligations.IdleBlockDoesNothing := fun _ _ hb h => step_of_idle hb h

/-- Settles O35: the command and the reset input alike leave `resetBlock` of a state. -/
theorem resetCommandResets : Obligations.ResetCommandResets :=
  ⟨fun _ s => ⟨_, rfl, atReset_resetBlock { s with cmdRefused := false }⟩,
    fun _ _ h => ⟨_, step_resetInput h 0#2, atReset_resetBlock _⟩⟩

/-- Settles O51: the machine after reset is what RESET makes of it, and its block is not busy. -/
theorem resetState : Obligations.ResetState :=
  ⟨atReset_resetBlock State.reset, step_of_idle (.inl ⟨rfl, rfl⟩) rfl⟩

end Sys2Proof.Proofs

/-! ### Register reads and STATUS (R32, R34, R107) -/

namespace Sys2Proof.Machine

theorem exec_rdreg_of_value {s : State} {n : Nat} {v : Word} (h : readNumber s n = some v) :
    exec (.rdreg n) s = .next { s with rdData := v } := by
  rw [exec, execRdreg, h]

theorem settled_of_not_busy {s : State} (h : s.isBusy = false) (v : Word) : settled s v = some v := by
  rw [settled, h, if_neg nofun]

/-- The numbers the table does not name (R32). -/
theorem hostReg_of_unknown {n : Nat} (h : n = 0x0B ∨ n = 0x0C ∨ n = 0x0D ∨ n = 0x0E ∨ n = 0x0F ∨ 0x20 ≤ n) :
    hostReg n = none := by
  rcases h with rfl | rfl | rfl | rfl | rfl | above
  case inr.inr.inr.inr.inr =>
    unfold hostReg
    split
    case h_12 => exact dif_neg fun hn => Nat.not_lt.2 above hn.2
    all_goals exact absurd above (by decide)
  all_goals rfl

theorem exec_rdreg_unknown (s : State) {n : Nat}
    (h : n = 0x0B ∨ n = 0x0C ∨ n = 0x0D ∨ n = 0x0E ∨ n = 0x0F ∨ 0x20 ≤ n) :
    exec (.rdreg n) s = .next { s with rdData := 0#32 } :=
  exec_rdreg_of_value (by rw [readNumber, hostReg_of_unknown h])

/-! The fields of `STATUS`, peeled off its word from the lowest up (R34). -/

theorem statusWord_phase (s : State) : (statusWord s).extractLsb' 0 3 = s.phase.code :=
  BitVec.extractLsb'_append_eq_right

theorem statusWord_flags (s : State) :
    (statusWord s).getLsbD 3 = s.streamValid ∧ (statusWord s).getLsbD 4 = s.syncFound ∧
    (statusWord s).getLsbD 5 = s.syncNotFound ∧ (statusWord s).getLsbD 6 = s.truncated ∧
    (statusWord s).getLsbD 7 = s.warm ∧ (statusWord s).getLsbD 8 = s.cmdRefused ∧
    (statusWord s).getLsbD 9 = s.busyOutput ∧ (statusWord s).getLsbD 10 = s.doneOutput ∧
    (statusWord s).getLsbD 11 = false := by
  simp only [statusWord, BitVec.getLsbD_append, BitVec.getLsbD_ofBool, Nat.reduceLT, Nat.reduceSub, if_true, if_false,
    decide_true, Bool.true_and, BitVec.getLsbD_zero, and_self]

theorem statusWord_err (s : State) : (statusWord s).extractLsb' 12 4 = s.err := by
  simp (disch := decide) only [statusWord, BitVec.extractLsb'_append_eq_of_le, Nat.reduceSub]
  exact BitVec.extractLsb'_append_eq_right

theorem statusWord_reserved (s : State) : (statusWord s).extractLsb' 16 16 = 0#16 := by
  simp (disch := decide) only [statusWord, BitVec.extractLsb'_append_eq_of_le, Nat.reduceSub]
  rfl

theorem busyOutput_eq (s : State) :
    s.busyOutput = decide (s.phase = .scan ∨ s.phase = .warmup ∨ s.phase = .main ∨ s.phase = .legacy) := by
  unfold State.busyOutput State.isBusy
  cases s.phase <;> rfl

end Sys2Proof.Machine

namespace Sys2Proof.Proofs

open Sys2Proof.Machine

/-- Settles O39: the registers that hold a result are settled while the block is not busy; the others always read. -/
theorem rdregReturnsTheRegister : Obligations.RdregReturnsTheRegister := by
  intro s hb
  have result := settled_of_not_busy hb
  exact ⟨exec_rdreg_of_value rfl, exec_rdreg_of_value rfl, exec_rdreg_of_value rfl, exec_rdreg_of_value rfl,
    exec_rdreg_of_value rfl, exec_rdreg_of_value (result _), exec_rdreg_of_value (result _),
    exec_rdreg_of_value (result _), exec_rdreg_of_value (result _), exec_rdreg_of_value (result _),
    exec_rdreg_of_value rfl, fun n hn => exec_rdreg_unknown s hn⟩

/-- Settles O43: the fields of the status word one by one; the phase's code and the two level
outputs by their phases. -/
theorem statusFields : Obligations.StatusFields := by
  intro s
  obtain ⟨hvalid, hfound, hnotFound, htruncated, hwarm, hrefused, hbusy, hdone, hzero⟩ := statusWord_flags s
  refine ⟨?_, hvalid, hfound, hnotFound, htruncated, hwarm, hrefused, hbusy.trans (busyOutput_eq s), hdone, hzero,
    statusWord_err s, statusWord_reserved s, exec_rdreg_of_value rfl, fun _ => rfl⟩
  rw [statusWord_phase]
  cases s.phase <;> rfl

end Sys2Proof.Proofs

/-! PROOFS of the family `20_memory.md`: what a presented buffer frees (R51, R52, R139), and that a state of the
invariant never stops (R46, R56, R147). -/

/-! ### A buffer the host presents (R51, R52, R139) -/

namespace Sys2Proof.Machine

theorem step_present {s : State} {bytes : List Byte} {rest : List HostTurn} (h : s.inbox = .present bytes :: rest) :
    step s = .next (presentBuffer bytes { s with inbox := rest }) :=
  step_of_quiet (by rw [fetchNext, h])

theorem recordKept_iff (m : Memory) (bytes : List Byte) (k : Nat) :
    recordKept m bytes k = true ↔ ∀ j, j < 4 → m.read (4 * k + j) = bytes[4 * k + j]? := by
  simp [recordKept]

theorem read_presentBuffer (bytes : List Byte) (s : State) (a : Nat) :
    (presentBuffer bytes s).stream.read a =
      if s.len ≤ a / 4 ∨ recordKept s.stream bytes (a / 4) = true then s.stream.read a else none := by
  simp only [presentBuffer_stream, Memory.read_keep, Bool.or_eq_true, decide_eq_true_eq]

/-- A data word is kept or freed whole, by its record: the sentinel's exemption does not reach it. -/
theorem read_presentBuffer_data {s : State} {k j : Nat} (bytes : List Byte) (hk : k < s.len) (hj : j < 4) :
    (presentBuffer bytes s).stream.read (4 * k + j) =
      if recordKept s.stream bytes k = true then s.stream.read (4 * k + j) else none := by
  have word : (4 * k + j) / 4 = k := by omega
  simp only [read_presentBuffer, word, Nat.not_le.2 hk, false_or]

end Sys2Proof.Machine

namespace Sys2Proof.Proofs

open Sys2Proof.Machine

/-- Settles O11: the sentinel is exempt by its address, a data word reads as before or as nothing by whether its record
was kept. -/
theorem presentedBufferFreesChangedWords : Obligations.PresentedBufferFreesChangedWords := by
  intro s bytes rest h
  refine ⟨_, step_present h, rfl, fun a ha => ?_, fun k hk => ⟨fun same j hj => ?_, fun ⟨i, hi, differs⟩ j hj => ?_⟩⟩
  · exact (read_presentBuffer bytes _ a).trans (if_pos (.inl ha))
  · exact (read_presentBuffer_data bytes hk hj).trans (if_pos ((recordKept_iff _ _ _).2 same))
  · have changed : ¬ recordKept s.stream bytes k = true := fun kept => differs ((recordKept_iff _ _ _).1 kept i hi)
    exact (read_presentBuffer_data bytes hk hj).trans (if_neg changed)

end Sys2Proof.Proofs

/-! ### No step stops (R46, R56, R147) -/

namespace Sys2Proof.Machine

/-- The block's turn answers a next state if a busy block has a stream: the reads are then in range and the window
decodes. -/
theorem step_next_of_blockTurn {s : State} {rest : List HostTurn} (h : s.BlockTurn rest)
    (loaded : s.isBusy = true → s.streamValid = true) : ∃ t, step s = .next t := by
  cases busy : s.isBusy with
  | false => exact ⟨_, step_of_idle h busy⟩
  | true =>
    obtain ⟨e, i, d, fetched, decoded⟩ := fetchStream_busy (s := { s with inbox := rest }) busy (loaded busy)
    rw [step_of_fetch ((fetchNext_of_blockTurn h).trans fetched) decoded]
    exact exec_next i _

end Sys2Proof.Machine

namespace Sys2Proof.Proofs

open Sys2Proof.Machine

/-- Settles O54: only the block's turn reads the stream, and there the invariant gives a busy block its stream; an
access of the host runs an instruction, and no meaning stops. -/
theorem invariantStatesNeverStop : Obligations.InvariantStatesNeverStop := by
  intro s hs
  cases turns : s.inbox with
  | nil => exact step_next_of_blockTurn (.inl ⟨turns, rfl⟩) hs.busyLoaded
  | cons turn rest =>
    cases turn with
    | block => exact step_next_of_blockTurn (.inr turns) hs.busyLoaded
    | present bytes => exact ⟨_, step_present turns⟩
    | read n => rw [step_read turns]; exact exec_next _ _
    | write n v => rw [step_write turns]; exact exec_next _ _
    | resetInput => rw [step_resetInput turns 0#2]; exact exec_next _ _

end Sys2Proof.Proofs

/-! PROOFS of the family `30_encoding.md`: decode and encode undo each other, and decode is total on the windows of the
length a phase tests (R53 to R58). -/

/-! ### The words of an instruction are read back as it (R54, R56, R58) -/

namespace Sys2Proof.Machine

theorem decodeScan_of_triple {w0 w1 w2 : Word} (h : (Instr.sync3 w0 w1 w2).wf = true) :
    decodeScan w0 w1 w2 = .sync3 w0 w1 w2 := if_pos h

theorem decodeScan_of_no_triple {w0 w1 w2 : Word} (h : (Instr.scanSkip w0 w1 w2).wf = true) :
    decodeScan w0 w1 w2 = .scanSkip w0 w1 w2 := if_neg (by simpa [Instr.wf] using h)

theorem decodeDemux_filler : decodeDemux Config.filler Config.filler = .fillPair := if_pos (by decide)

theorem decodeDemux_of_no_filler {w next : Word} (h : (Instr.data w next).wf = true) :
    decodeDemux w next = .data w next := if_neg (by simpa [Instr.wf] using h)

/-- The fields of a record, peeled off its word from the lowest up (R54). -/
theorem decodeRecord_recordWord (hi tag : BitVec 4) (b2 : Byte) (v0 : Half) :
    decodeRecord (recordWord hi tag b2 v0) = .lRec hi tag b2 v0 := by
  have low : recordV0 (recordWord hi tag b2 v0) = v0 := BitVec.extractLsb'_append_eq_right
  have byte : recordB2 (recordWord hi tag b2 v0) = b2 :=
    (BitVec.extractLsb'_append_eq_of_le (by decide)).trans BitVec.extractLsb'_append_eq_right
  have channel : recordTag (recordWord hi tag b2 v0) = tag := by
    simp (disch := decide) only [recordTag, recordWord, BitVec.extractLsb'_append_eq_of_le, Nat.reduceSub]
    exact BitVec.extractLsb'_append_eq_right
  have high : recordHi (recordWord hi tag b2 v0) = hi := by
    simp (disch := decide) only [recordHi, recordWord, BitVec.extractLsb'_append_eq_of_le, Nat.reduceSub]
    exact BitVec.extractLsb'_eq_self
  rw [decodeRecord, low, byte, channel, high]

theorem reset_of_word (x : BitVec 2) : decodeCommand (commandWord x 15#4) = .reset x := by
  revert x
  decide

end Sys2Proof.Machine

namespace Sys2Proof.Proofs

open Sys2Proof.Machine

/-- Settles O3: each row by the decoder of its port, the commands through the write to `CMD`. The operands of SYNC3,
SCANSKIP, DATA, CMD_RESERVED and WRREG need the condition of their row. -/
theorem decodeOfEncodeIsTheInstruction : Obligations.DecodeOfEncodeIsTheInstruction := by
  intro i hwf
  have command : ∀ {v j}, decodeCommand v = j → decode ⟨.write 0, [v]⟩ = .ok j :=
    fun {v} _ h => congrArg Except.ok ((decodeWrite_cmd v).trans h)
  cases i with
  | scanEnd | streamEnd | lEnd | rdreg => rfl
  | sync3 w0 w1 w2 => exact congrArg Except.ok (decodeScan_of_triple hwf)
  | scanSkip w0 w1 w2 => exact congrArg Except.ok (decodeScan_of_no_triple hwf)
  | fillPair => exact congrArg Except.ok decodeDemux_filler
  | data w next => exact congrArg Except.ok (decodeDemux_of_no_filler hwf)
  | lRec hi tag b2 v0 => exact congrArg Except.ok (decodeRecord_recordWord hi tag b2 v0)
  | nop x => exact command (nop_of_word x)
  | load x => exact command (load_of_word x)
  | findSync x => exact command (findSync_of_word x)
  | run mode sync => exact command (run_of_word mode sync)
  | ringInit x => exact command (ringInit_of_word x)
  | reset x => exact command (reset_of_word x)
  | cmdReserved v => exact command (cmdReserved_of_word hwf)
  | wrreg n v => exact congrArg Except.ok (decodeWrite_of_ne_cmd (by simpa [Instr.wf] using hwf) v)

end Sys2Proof.Proofs

/-! ### What is decoded has the words it was decoded from (R54, R56, R58) -/

namespace Sys2Proof.Machine

/-- One constructor per row of the decode table (R56, R58): what the words at a port are read as. -/
inductive DecodesTo : Encoding → Instr → Prop
  | scanEnd : DecodesTo ⟨.scan, []⟩ .scanEnd
  | scan (w0 w1 w2 : Word) : DecodesTo ⟨.scan, [w0, w1, w2]⟩ (decodeScan w0 w1 w2)
  | streamEnd : DecodesTo ⟨.demux, []⟩ .streamEnd
  | demux (w0 w1 : Word) : DecodesTo ⟨.demux, [w0, w1]⟩ (decodeDemux w0 w1)
  | lEnd : DecodesTo ⟨.legacy, []⟩ .lEnd
  | record (w : Word) : DecodesTo ⟨.legacy, [w]⟩ (decodeRecord w)
  | read (n : Nat) : DecodesTo ⟨.read n, []⟩ (.rdreg n)
  | write (n : Nat) (v : Word) : DecodesTo ⟨.write n, [v]⟩ (decodeWrite n v)

theorem decode_eq_ok_iff (e : Encoding) (i : Instr) : decode e = .ok i ↔ DecodesTo e i := by
  constructor
  · obtain ⟨port, words⟩ := e
    intro h
    unfold decode at h
    split at h <;> cases h <;> subst_vars <;> constructor
  · rintro ⟨⟩ <;> rfl

/-- `i` is a well-formed instruction, and `e` is its encoding. -/
def IsEncodingOf (e : Encoding) (i : Instr) : Prop := encode i = e ∧ i.wf = true

theorem isEncodingOf_decodeScan (w0 w1 w2 : Word) : IsEncodingOf ⟨.scan, [w0, w1, w2]⟩ (decodeScan w0 w1 w2) := by
  unfold decodeScan
  split
  next triple => exact ⟨rfl, triple⟩
  next other => exact ⟨rfl, by simpa [Instr.wf] using other⟩

theorem isEncodingOf_decodeDemux (w0 w1 : Word) : IsEncodingOf ⟨.demux, [w0, w1]⟩ (decodeDemux w0 w1) := by
  unfold decodeDemux
  split
  next pair =>
    obtain ⟨rfl, rfl⟩ : w0 = Config.filler ∧ w1 = Config.filler := by simpa [isFillerPair] using pair
    exact ⟨rfl, rfl⟩
  next other => exact ⟨rfl, by simpa [Instr.wf] using other⟩

/-- A record's word is its fields, which leave no bit out (R54). -/
theorem recordWord_fields (w : Word) : recordWord (recordHi w) (recordTag w) (recordB2 w) (recordV0 w) = w := by
  have b3 : recordHi w ++ recordTag w = w.extractLsb' 24 8 := BitVec.extractLsb'_append_extractLsb'_eq_extractLsb' rfl
  have upper : w.extractLsb' 24 8 ++ recordB2 w = w.extractLsb' 16 16 :=
    BitVec.extractLsb'_append_extractLsb'_eq_extractLsb' rfl
  rw [recordWord, b3, upper]
  exact (BitVec.extractLsb'_append_extractLsb'_eq_extractLsb' rfl).trans BitVec.extractLsb'_eq_self

theorem isEncodingOf_decodeRecord (w : Word) : IsEncodingOf ⟨.legacy, [w]⟩ (decodeRecord w) :=
  ⟨congrArg (fun v => Encoding.mk .legacy [v]) (recordWord_fields w), rfl⟩

/-- The two options of a RUN are the option bits of its value (R33). -/
theorem runOptions_fields (v : Word) : runOptions (commandMode v) (commandSync v) = commandOptions v := by
  have bit (k : Nat) : v.extractLsb' k 1 = BitVec.ofBool (v.getLsbD k) := by
    refine BitVec.eq_of_getLsbD_eq fun j hj => ?_
    obtain rfl : j = 0 := by omega
    simp
  have mode : (commandMode v == .legacy) = v.getLsbD 5 := by
    unfold commandMode
    cases v.getLsbD 5 <;> rfl
  rw [runOptions, mode, commandSync, ← bit, ← bit]
  exact BitVec.extractLsb'_append_extractLsb'_eq_extractLsb' rfl

/-- A value that is a command is the word of its option bits and the command's `OP` (R33). -/
theorem commandWord_of_commandOp {v : Word} {c : CommandOp} {op : BitVec 4} (h : commandOp v = c)
    (hc : c.number = some op) : commandWord (commandOptions v) op = v := by
  obtain ⟨clear, rfl⟩ := (and_mask_eq_iff v op).1 ((commandOp_eq_iff_matches v hc rfl).1 h)
  have upper : commandReservedField v ++ commandOptions v = v.extractLsb' 4 28 :=
    BitVec.extractLsb'_append_extractLsb'_eq_extractLsb' rfl
  rw [commandWord, ← clear, upper]
  exact (BitVec.extractLsb'_append_extractLsb'_eq_extractLsb' rfl).trans BitVec.extractLsb'_eq_self

theorem isEncodingOf_decodeCommand (v : Word) : IsEncodingOf ⟨.write 0, [v]⟩ (decodeCommand v) := by
  have word : ∀ {w}, w = v → Encoding.mk (.write 0) [w] = ⟨.write 0, [v]⟩ :=
    congrArg fun w => Encoding.mk (.write 0) [w]
  unfold decodeCommand
  cases h : commandOp v with
  | nop | load | findSync | ringInit | reset => exact ⟨word (commandWord_of_commandOp h rfl), rfl⟩
  | run =>
    have options : commandWord (runOptions (commandMode v) (commandSync v)) 3#4 = v := by
      rw [runOptions_fields]
      exact commandWord_of_commandOp h rfl
    exact ⟨word options, rfl⟩
  | reserved => exact ⟨rfl, beq_iff_eq.2 h⟩

theorem isEncodingOf_decodeWrite (n : Nat) (v : Word) : IsEncodingOf ⟨.write n, [v]⟩ (decodeWrite n v) := by
  by_cases hn : n = 0
  · rw [hn, decodeWrite_cmd]
    exact isEncodingOf_decodeCommand v
  · rw [decodeWrite_of_ne_cmd hn]
    exact ⟨rfl, by simpa [Instr.wf] using hn⟩

end Sys2Proof.Machine

namespace Sys2Proof.Proofs

open Sys2Proof.Machine

/-- Settles O4: row by row of the decode table. -/
theorem encodeOfDecodeIsTheWords : Obligations.EncodeOfDecodeIsTheWords := by
  intro e i h
  cases (decode_eq_ok_iff e i).1 h with
  | scanEnd | streamEnd | lEnd | read => exact ⟨rfl, rfl⟩
  | scan w0 w1 w2 => exact isEncodingOf_decodeScan w0 w1 w2
  | demux w0 w1 => exact isEncodingOf_decodeDemux w0 w1
  | record w => exact isEncodingOf_decodeRecord w
  | write n v => exact isEncodingOf_decodeWrite n v

/-- Settles O2: the decoder is run on each of the eleven windows. -/
theorem knownWordsDecode : Obligations.KnownWordsDecode := by
  unfold Obligations.KnownWordsDecode
  decide

/-- Settles O6: the rows of a port have the lengths its phase tests, and a window of such a length is in one of them
whatever its words. -/
theorem everyWindowDecodes : Obligations.EveryWindowDecodes := by
  intro e
  constructor
  · rintro ⟨i, h⟩
    cases (decode_eq_ok_iff e i).1 h <;> simp
  · obtain ⟨port, words⟩ := e
    intro h
    cases port with
    | scan =>
      obtain h | h := h
      · obtain rfl : words = [] := List.length_eq_zero_iff.1 h
        exact ⟨_, rfl⟩
      · obtain ⟨w0, w1, w2, rfl⟩ := List.length_eq_three.1 h
        exact ⟨_, rfl⟩
    | demux =>
      obtain h | h := h
      · obtain rfl : words = [] := List.length_eq_zero_iff.1 h
        exact ⟨_, rfl⟩
      · obtain ⟨w0, w1, rfl⟩ := List.length_eq_two.1 h
        exact ⟨_, rfl⟩
    | legacy =>
      obtain h | h := h
      · obtain rfl : words = [] := List.length_eq_zero_iff.1 h
        exact ⟨_, rfl⟩
      · obtain ⟨w, rfl⟩ := List.length_eq_one_iff.1 h
        exact ⟨_, rfl⟩
    | read n =>
      obtain rfl : words = [] := List.length_eq_zero_iff.1 h
      exact ⟨_, rfl⟩
    | write n =>
      obtain ⟨v, rfl⟩ := List.length_eq_one_iff.1 h
      exact ⟨_, rfl⟩

end Sys2Proof.Proofs

/-! PROOFS of the family `40_wordstream_load.md`: what LOAD builds of the bytes presented, and what a failed one leaves
(R60 to R63, R119, R122). -/

/-! ### The word of four bytes in memory (R42) -/

namespace Sys2Proof.Machine

theorem toNat_append_byte {n : Nat} (hi : BitVec n) (lo : Byte) : (hi ++ lo).toNat = 2 ^ 8 * hi.toNat + lo.toNat := by
  rw [BitVec.toNat_append, ← Nat.shiftLeft_add_eq_or_of_lt lo.isLt, Nat.shiftLeft_eq, Nat.mul_comm]

/-- `BYTE_ORDER = little` as arithmetic (R42). -/
theorem wordOfBytes_eq_ofNat (b0 b1 b2 b3 : Byte) : wordOfBytes b0 b1 b2 b3 =
    BitVec.ofNat 32 (b0.toNat + 2 ^ 8 * b1.toNat + 2 ^ 16 * b2.toNat + 2 ^ 24 * b3.toNat) := by
  apply BitVec.eq_of_toNat_eq
  simp only [wordOfBytes, toNat_append_byte, BitVec.toNat_ofNat]
  omega

/-- `Holds` from the memory's own reads, for a word whose bytes are known one by one. -/
theorem State.Holds.of_reads {s : State} {k : Nat} {b0 b1 b2 b3 : Byte} (h0 : s.stream.read (4 * k) = some b0)
    (h1 : s.stream.read (4 * k + 1) = some b1) (h2 : s.stream.read (4 * k + 2) = some b2)
    (h3 : s.stream.read (4 * k + 3) = some b3) : s.Holds k (wordOfBytes b0 b1 b2 b3) := by
  constructor
  · rw [wordListed_iff]
    intro j hj
    obtain rfl | rfl | rfl | rfl : j = 0 ∨ j = 1 ∨ j = 2 ∨ j = 3 := by omega
    · exact Option.isSome_of_eq_some h0
    · exact Option.isSome_of_eq_some h1
    · exact Option.isSome_of_eq_some h2
    · exact Option.isSome_of_eq_some h3
  · simp only [wordAt, byteOr, Nat.add_zero, h0, h1, h2, h3, Option.getD_some]

end Sys2Proof.Machine

/-! ### LOAD in phase IDLE or DONE (R60, R102) -/

namespace Sys2Proof.Machine

theorem exec_load_of_accepting (x : BitVec 2) {s : State} (ok : s.phase = .idle ∨ s.phase = .done) :
    exec (.load x) s = .next (loadEffect { s with cmdRefused := false }) := by
  rcases whenIdle_cases loadEffect s with ⟨-, h⟩ | ⟨⟨not_idle, not_done⟩, -⟩
  · exact next_congr h
  · exact (ok.elim not_idle not_done).elim

theorem loadEffect_of_good_length {s : State} (aligned : s.byteLen.toNat % 4 = 0)
    (fits : s.byteLen.toNat ≤ Config.maxBytes) :
    loadEffect s = { buildStream s with phase := .idle, pos := 0#32, syncFound := false, syncNotFound := false } ∧
    4 * (loadEffect s).len = s.byteLen.toNat := by
  rcases checkedLoad_cases s with ⟨odd, -⟩ | ⟨-, large, -⟩ | ⟨-, -, h, hlen⟩
  · exact absurd aligned odd
  · exact absurd fits (Nat.not_le.2 large)
  · rw [loadEffect, h]
    exact ⟨rfl, hlen⟩

/-- The code of a failed LOAD: the alignment is checked first (R122). -/
theorem loadEffect_of_bad_length {s : State} (bad : s.byteLen.toNat % 4 ≠ 0 ∨ Config.maxBytes < s.byteLen.toNat) :
    loadEffect s =
      { raise (if s.byteLen.toNat % 4 ≠ 0 then .invalidLength else .fileTooLarge) s with
        pos := 0#32, syncFound := false, syncNotFound := false } := by
  rcases checkedLoad_cases s with ⟨odd, h⟩ | ⟨aligned, -, h⟩ | ⟨aligned, fits, -⟩
  · rw [loadEffect, h, if_pos odd]
    rfl
  · rw [loadEffect, h, if_neg (not_not.2 aligned)]
    rfl
  · exact (bad.elim (· aligned) (Nat.not_lt.2 fits)).elim

theorem buildStream_stream {s : State} (h : 4 * (buildStream s).len = s.byteLen.toNat) :
    (buildStream s).stream = Memory.ofStream s.hostBuf (buildStream s).len :=
  congrArg (Memory.ofStream s.hostBuf) (by omega)

end Sys2Proof.Machine

/-! ### The state after a good LOAD, and after a failed one (R61, R62, R63) -/

namespace Sys2Proof.Proofs

open Sys2Proof.Machine

/-- Settles O29: the stream is `Memory.ofStream` of the host's bytes and of the new `N`, and a data word is made of the
four bytes it reads there. -/
theorem loadBuildsTheStream : Obligations.LoadBuildsTheStream := by
  intro x s ok aligned fits
  obtain ⟨heq, hlen⟩ := loadEffect_of_good_length (s := { s with cmdRefused := false }) aligned fits
  refine ⟨_, exec_load_of_accepting x ok, ?_⟩
  generalize loadEffect { s with cmdRefused := false } = t at heq hlen ⊢
  have hstream : t.stream = Memory.ofStream s.hostBuf t.len := by
    subst heq
    exact buildStream_stream hlen
  have below {a : Nat} {b : Byte} (ha : a < 4 * t.len) (hb : s.hostBuf[a]? = some b) : t.stream.read a = some b := by
    rw [hstream, Memory.read_ofStream, if_pos ha, hb]
  refine ⟨?_, hlen, holds_sentinel_of_ofStream hstream, fun a b ha => below (hlen.symm ▸ ha), ?_, ?_⟩
  · rw [heq]
    rfl
  · intro a ha
    have above : 4 * t.len + 4 ≤ a := hlen.symm ▸ ha
    rw [hstream, Memory.read_ofStream, if_neg (by omega), if_neg (by omega)]
  · intro k b0 b1 b2 b3 hk h0 h1 h2 h3
    rw [← wordOfBytes_eq_ofNat]
    exact .of_reads (below (by omega) h0) (below (by omega) h1) (below (by omega) h2) (below (by omega) h3)

/-- Settles O30: the failed check raises its condition, which drops the stream and reports its code. -/
theorem failedLoadLeavesNoStream : Obligations.FailedLoadLeavesNoStream := by
  intro x s ok bad
  rw [exec_load_of_accepting x ok, loadEffect_of_bad_length (s := { s with cmdRefused := false }) bad]
  by_cases aligned : s.byteLen.toNat % 4 = 0
  · simp only [aligned, ne_eq, not_true_eq_false, if_false, raise_fileTooLarge]
  · simp only [aligned, ne_eq, not_false_eq_true, if_true, raise_invalidLength]

end Sys2Proof.Proofs

/-! PROOFS of the family `41_find_sync.md`: the instructions of phase SCAN, the scan they make up as a function of the
stream, and the command that starts it (R65 to R70). -/

/-! ### SYNC3, SCANSKIP and SCANEND (R67, R68, R69) -/

namespace Sys2Proof.Machine

theorem exec_sync3 (w0 w1 w2 : Word) (s : State) : exec (.sync3 w0 w1 w2) s = .next (enterAfterScan { s with
    syncIndex := s.pos, syncFound := true, syncNotFound := false, pos := s.pos + 3#32 }) := rfl

theorem exec_scanSkip (w0 w1 w2 : Word) (s : State) : exec (.scanSkip w0 w1 w2) s = .next (advance 1 s) := rfl

theorem exec_scanEnd (s : State) : exec .scanEnd s = .next (enterAfterScan { s with
    syncIndex := s.pos, syncFound := false, syncNotFound := true }) :=
  next_congr (congrArg enterAfterScan (raise_syncNotFound s))

end Sys2Proof.Machine

namespace Sys2Proof.Proofs

open Sys2Proof.Machine

/-- Settles O12: the phase entered is said by `enterAfterScan_eq`. -/
theorem sync3Result : Obligations.Sync3Result := fun w0 w1 w2 s =>
  (exec_sync3 w0 w1 w2 s).trans (next_congr (enterAfterScan_eq _))

/-- Settles O13: SCANSKIP is `advance` by 1. -/
theorem scanSkipResult : Obligations.ScanSkipResult := exec_scanSkip

/-- Settles O14: the condition raised is `SyncNotFound`; the phase entered is said by `enterAfterScan_eq`. -/
theorem scanEndResult : Obligations.ScanEndResult := fun s =>
  (exec_scanEnd s).trans (next_congr (enterAfterScan_eq _))

/-- Settles O31: in phase IDLE or DONE with a stream the command is accepted. -/
theorem findSyncStartsAScan : Obligations.FindSyncStartsAScan := by
  intro x s ok loaded
  rcases whenIdleAndLoaded_cases findSyncEffect s with ⟨-, h⟩ | ⟨no, -⟩
  · exact next_congr h
  · exact (not_accepts_of_busy_or_unloaded no ⟨ok, loaded⟩).elim

end Sys2Proof.Proofs

/-! ### The scan as a function (R70) -/

namespace Sys2Proof.Machine

theorem run_of_step (M : Host.Core) {k : Nat} {s t : M.State} (first : M.step s = .next t) :
    M.run (k + 1) s = M.run k t := by
  rw [Host.Core.run, first]

theorem RunsTo.of_step {k : Nat} {s t u : State} (first : step s = .next t) (rest : RunsTo k t u) :
    RunsTo (k + 1) s u :=
  (run_of_step Sys2Proof.core first).trans rest

theorem runsTo_one {s t : State} (h : step s = .next t) : RunsTo 1 s t := .of_step h rfl

/-- The block is in phase SCAN over a fixed stream, with no host turn to come. -/
structure State.Scans (s : State) : Prop where
  loaded : s.streamValid = true
  fixed : s.StreamFixed
  phase : s.phase = .scan
  alone : s.inbox = []

/-- The state with its cursor at index `k`. -/
def State.atCursor (s : State) (k : Nat) : State := { s with pos := BitVec.ofNat 32 k }

theorem State.atCursor_self (s : State) : s.atCursor s.pos.toNat = s := by
  simp [State.atCursor]

/-- The cursor moves on by 1 without wrapping below the scan limit, since `N` has 24 bits. -/
theorem toNat_pos_advance_one {s : State} (h : s.pos.toNat < s.len - 1) :
    (advance 1 s).pos.toNat = s.pos.toNat + 1 := by
  have hn : s.len < 2 ^ 24 := s.n.isLt
  rw [advance_pos, BitVec.toNat_add, BitVec.toNat_ofNat]
  omega

namespace State.Scans

variable {s : State}

theorem with_pos (h : s.Scans) (pos : Word) : ({ s with pos := pos } : State).Scans :=
  ⟨h.loaded, h.fixed, h.phase, h.alone⟩

theorem without_turns (h : s.Scans) : { s with inbox := [] } = s := by
  rw [← h.alone]

theorem step_below (h : s.Scans) (hlt : s.pos.toNat < s.len - 1) :
    step s = exec (decodeScan (s.word s.pos.toNat) (s.word (s.pos.toNat + 1)) (s.word (s.pos.toNat + 2))) s := by
  have holds : ∀ k, k ≤ s.pos.toNat + 2 → s.Holds k (s.word k) := fun k hk => ⟨h.fixed k (by omega), rfl⟩
  have hstep := step_scan (.inl ⟨h.alone, rfl⟩) h.loaded h.phase hlt (holds _ (by omega)) (holds _ (by omega))
    (holds _ le_rfl)
  rwa [h.without_turns] at hstep

/-- One step finds the triple that stands at the cursor (R67). -/
theorem finds (h : s.Scans) (hlt : s.pos.toNat < s.len - 1) (triple : s.tripleAt s.pos.toNat = true) :
    step s = .next (enterAfterScan { s with
      syncIndex := s.pos, syncFound := true, syncNotFound := false, pos := s.pos + 3#32 }) := by
  rw [h.step_below hlt, decodeScan_of_triple triple, exec_sync3]

/-- One step passes over a position that begins no triple (R68). -/
theorem skips (h : s.Scans) (hlt : s.pos.toNat < s.len - 1) (other : s.tripleAt s.pos.toNat = false) :
    step s = .next (advance 1 s) := by
  rw [h.step_below hlt, decodeScan_of_no_triple (congrArg Bool.not other), exec_scanSkip]

/-- One step ends the scan at or past the limit (R69). -/
theorem ends (h : s.Scans) (hle : s.len - 1 ≤ s.pos.toNat) :
    step s = .next (enterAfterScan { s with syncIndex := s.pos, syncFound := false, syncNotFound := true }) := by
  rw [step_scanEnd (.inl ⟨h.alone, rfl⟩) h.phase hle, h.without_turns, exec_scanEnd]

/-- The scan reaches index `p` in `p - cursor` steps if no position before it begins a triple, by induction on the
distance. The state it reaches does not depend on where the cursor was, nor does what runs from there. -/
theorem reaches (h : s.Scans) {p k : Nat} {t : State} (hp : s.pos.toNat ≤ p)
    (others : ∀ q, s.pos.toNat ≤ q → q < p → q < s.len - 1 ∧ s.tripleAt q = false)
    (rest : RunsTo k (s.atCursor p) t) : RunsTo (p - s.pos.toNat + k) s t := by
  induction distance : p - s.pos.toNat generalizing s with
  | zero =>
    obtain rfl : p = s.pos.toNat := by omega
    rw [Nat.zero_add]
    exact s.atCursor_self ▸ rest
  | succ d ih =>
    obtain ⟨below, other⟩ := others s.pos.toNat le_rfl (by omega)
    have moved := toNat_pos_advance_one below
    have later : RunsTo (d + k) (advance 1 s) t :=
      ih (h.with_pos _) (by omega) (fun q hq => others q (by omega)) rest (by omega)
    rw [Nat.add_right_comm]
    exact .of_step (h.skips below other) later

end State.Scans

end Sys2Proof.Machine

namespace Sys2Proof.Proofs

open Sys2Proof.Machine

/-- Settles O15: the scan skips to the first triple, or to the limit, and one more step finds the triple or ends it. -/
theorem scanFindsTheFirstTriple : Obligations.ScanFindsTheFirstTriple := by
  intro s loaded fixed phase alone
  have scans : s.Scans := ⟨loaded, fixed, phase, alone⟩
  have hn : s.len < 2 ^ 24 := s.n.isLt
  have cursor : ∀ p, p < 2 ^ 32 → (s.atCursor p).pos.toNat = p := fun _ hp => Nat.mod_eq_of_lt hp
  constructor
  · intro p hp hlt triple first
    have at_p := cursor p (by omega)
    have found := (scans.with_pos (BitVec.ofNat 32 p)).finds (at_p.symm ▸ hlt) (at_p.symm ▸ triple)
    rw [← BitVec.ofNat_add] at found
    exact scans.reaches hp (fun q hq before => ⟨before.trans hlt, first q hq before⟩) (runsTo_one found)
  · intro none
    have at_limit := cursor (max s.pos.toNat (s.len - 1)) (by omega)
    refine scans.reaches (le_max_left _ _) (fun q hq before => ?_) (runsTo_one ((scans.with_pos _).ends ?_))
    · have hlt : q < s.len - 1 := by omega
      exact ⟨hlt, none q hq hlt⟩
    · exact at_limit.symm ▸ le_max_right _ _

end Sys2Proof.Proofs

/-! PROOFS of the family `42_demux_round_robin.md`: the command that starts a round-robin pass, the instructions of a
pass, the frame sixteen words become, the pass as a loop over the words left, and the end of every pass (R72 to R85). -/

/-! ### RUN and STREAMEND (R72, R79) -/

namespace Sys2Proof.Proofs

open Sys2Proof.Machine

/-- Settles O19: STREAMEND by whether a frame is unfinished. -/
theorem streamEndResult : Obligations.StreamEndResult := execStreamEnd_eq

/-- Settles O32: in phase IDLE or DONE with a stream the effect of RUN is not the refusal. -/
theorem runStartsARoundRobinPass : Obligations.RunStartsARoundRobinPass := by
  intro sync s ok loaded
  obtain ⟨t, hexec, he⟩ := exec_effect (.run .roundRobin sync) s nofun
  rw [hexec]
  cases he with
  | runRoundRobin => rfl
  | refused _ no => exact absurd ⟨ok, loaded⟩ no

end Sys2Proof.Proofs

/-! ### DATA: the routing, and the frames of the warm-up (R75, R78, R80, R144) -/

namespace Sys2Proof.Machine

variable {w next : Word} {s t : State}

theorem effect_of_data (h : exec (.data w next) s = .next t) : Effect s (.data w next) t :=
  effect_of_exec (fun _ => Instr.noConfusion) h

/-- DATA completes a frame at channel 15 only (R80). -/
theorem Effect.data_frames (h : Effect s (.data w next) t) :
    (s.ringCi.val < 15 ∧ framesOf t.trace = framesOf s.trace) ∨
    (s.ringCi.val = 15 ∧ t.ringCount = countUp s.ringCount ∧
      ∃ samples, framesOf t.trace = framesOf s.trace ++ [(s.ringI, s.phase == .main, samples)]) := by
  cases h with
  | dataMid _ _ mid => exact .inl ⟨mid, rfl⟩
  | dataLast _ _ last => exact .inr ⟨last, rfl, _, framesOf_append _ _⟩
  | refused _ no => exact absurd trivial no

theorem Effect.data_stream (h : Effect s (.data w next) t) : t.stream = s.stream ∧ t.n = s.n := by
  obtain ⟨hstream, hn, -⟩ := h.stream_unchanged (fun _ => Instr.noConfusion) (fun _ => Instr.noConfusion)
  exact ⟨hstream, hn⟩

end Sys2Proof.Machine

namespace Sys2Proof.Proofs

open Sys2Proof.Machine

/-- Settles O20: the channel of the state decides which effect both steps have, and the two effects differ in the stored
cell and in the samples of the frame only. -/
theorem routingIgnoresTheWord : Obligations.RoutingIgnoresTheWord := by
  intro s t t' w w' next next' h h'
  have he := effect_of_data h
  have he' := effect_of_data h'
  have cells : ∀ slot k, ¬(slot = s.ringI ∧ k = s.ringCi) →
      ringCell (storeSample w' s) slot k = ringCell (storeSample w s) slot k := by
    intro slot k other
    simp only [ringCell_storeSample, if_neg other]
  cases he with
  | dataMid _ _ mid =>
    cases he' with
    | dataMid => exact ⟨rfl, cells, rfl⟩
    | dataLast _ _ last => exact absurd last mid.ne
    | refused _ no => exact absurd trivial no
  | dataLast _ _ last =>
    cases he' with
    | dataMid _ _ mid => exact absurd last mid.ne
    | dataLast => exact ⟨rfl, cells, by simp only [framesOf_append, framesOf, List.map_append, List.map_cons]⟩
    | refused _ no => exact absurd trivial no
  | refused _ no => exact absurd trivial no

/-- Settles O56: the invariant ties the count to the frames, so in WARMUP there are fewer than 33, and the frame that
DATA may complete is the 33rd just when the count saturates. -/
theorem warmupFramesAreNotValid : Obligations.WarmupFramesAreNotValid := by
  intro w next s t inv warmup h notValid
  have he := effect_of_data h
  have count := inv.countIsFrames
  have notFull := inv.warmupNotFull warmup
  have main_iff : t.phase = .main ↔ s.ringCi.val = 15 ∧ t.ringCount.val = 33 := by
    rw [he.data_phase, warmup]
    simp
  rw [main_iff]
  rcases he.data_frames with ⟨mid, frames⟩ | ⟨last, counted, samples, frames⟩
  · have same : t.frames = s.frames := congrArg List.length frames
    rw [same, frames]
    exact ⟨notValid, iff_of_false (fun main => mid.ne main.1) (by omega), by omega⟩
  · have one_more : t.frames = s.frames + 1 := by
      rw [State.frames, frames, List.length_append]
      rfl
    rw [counted, countUp_val, one_more, frames, warmup]
    refine ⟨?_, by omega, by omega⟩
    simpa only [List.forall_mem_append, List.forall_mem_singleton] using ⟨notValid, rfl⟩

end Sys2Proof.Proofs

/-! ### Runs, and the step of a pass left alone -/

namespace Sys2Proof.Machine

theorem RunsTo.trans {k m : Nat} {s t u : State} (first : RunsTo k s t) (rest : RunsTo m t u) :
    RunsTo (k + m) s u := by
  induction k generalizing s with
  | zero =>
    injection first with first
    rw [Nat.zero_add]
    exact first ▸ rest
  | succ k ih =>
    rw [Nat.add_right_comm]
    cases next : step s with
    | next s' => exact .of_step next (ih ((run_of_step Sys2Proof.core next).symm.trans first))
    | fault r => simp [RunsTo, Host.Core.run, Sys2Proof.core, next] at first
    | refused r => simp [RunsTo, Host.Core.run, Sys2Proof.core, next] at first

section
variable {s : State}

theorem State.without_turns (alone : s.inbox = []) : { s with inbox := [] } = s := by
  rw [← alone]

/-- With no turn listed, a step of a round-robin pass below `N` runs what the two words at the cursor decode to. -/
theorem step_demux_alone (alone : s.inbox = []) (loaded : s.streamValid = true)
    (phase : s.phase = .warmup ∨ s.phase = .main) (below : s.pos.toNat < s.len) {w0 w1 : Word}
    (h0 : s.Holds s.pos.toNat w0) (h1 : s.Holds (s.pos.toNat + 1) w1) : step s = exec (decodeDemux w0 w1) s := by
  rw [step_demux (.inl ⟨alone, rfl⟩) loaded phase below h0 h1, State.without_turns alone]

end

end Sys2Proof.Machine

/-! ### Sixteen words become a frame (R78, R80, R85) -/

namespace Sys2Proof.Machine

/-- The block is in a round-robin pass left alone, at channel 0, with the sixteen fixed words `ws` at the cursor, of
which none begins a filler pair. -/
structure State.FacesFrame (s : State) (ws : Vector Word 16) : Prop where
  loaded : s.streamValid = true
  alone : s.inbox = []
  phase : s.phase = .warmup ∨ s.phase = .main
  room : s.pos.toNat + 16 ≤ s.len
  words : ∀ k : Fin 16, s.Holds (s.pos.toNat + k) ws[k]
  lookahead : wordListed s.stream (s.pos.toNat + 16) = true
  noFiller : ∀ k : Fin 16, isFillerPair (s.word (s.pos.toNat + k)) (s.word (s.pos.toNat + k + 1)) = false

/-- The state that has come from `s` to channel `ci` of the slot, one word a channel. -/
def State.atChannel (s : State) (ring : Vector Frame 33) (ci : Fin 16) : State :=
  { s with ring := ring, ringCi := ci, pos := s.pos + BitVec.ofNat 32 ci.val }

/-- The ring is that of `s` but for the channels below `j` of the slot begun, which hold the words before `j`. -/
def State.FilledBelow (s : State) (ws : Vector Word 16) (j : Nat) (t : State) : Prop :=
  ∀ slot k, ringCell t slot k = if slot = s.ringI ∧ k.val < j then some ws[k] else ringCell s slot k

section
variable {s t : State} {ws : Vector Word 16}

theorem State.FacesFrame.pos_atChannel (h : s.FacesFrame ws) (ring : Vector Frame 33) (ci : Fin 16) :
    (s.atChannel ring ci).pos.toNat = s.pos.toNat + ci := by
  have hn : s.len < 2 ^ 24 := s.n.isLt
  have room := h.room
  simp only [State.atChannel, BitVec.toNat_add, BitVec.toNat_ofNat]
  omega

theorem State.FacesFrame.listed (h : s.FacesFrame ws) {j : Nat} (hj : j ≤ 16) :
    wordListed s.stream (s.pos.toNat + j) = true := by
  rcases hj.eq_or_lt with rfl | hlt
  · exact h.lookahead
  · exact (h.words ⟨j, hlt⟩).1

/-- At every channel the next step is DATA with the channel's word (R76, R78). -/
theorem State.FacesFrame.step_atChannel (h : s.FacesFrame ws) (ring : Vector Frame 33) (ci : Fin 16) :
    step (s.atChannel ring ci) = exec (.data ws[ci] (s.word (s.pos.toNat + ci + 1))) (s.atChannel ring ci) := by
  have cursor := h.pos_atChannel ring ci
  have below : (s.atChannel ring ci).pos.toNat < (s.atChannel ring ci).len :=
    cursor ▸ Nat.lt_of_lt_of_le (Nat.add_lt_add_left ci.isLt _) h.room
  have word := h.words ci
  have value : s.word (s.pos.toNat + ci) = ws[ci] := word.2
  have next : s.Holds (s.pos.toNat + ci + 1) (s.word (s.pos.toNat + ci + 1)) := ⟨h.listed ci.isLt, rfl⟩
  have noFiller : isFillerPair ws[ci] (s.word (s.pos.toNat + ci + 1)) = false := value ▸ h.noFiller ci
  rw [step_demux_alone (s := s.atChannel ring ci) (w0 := ws[ci]) (w1 := s.word (s.pos.toNat + ci + 1)) h.alone h.loaded
    h.phase below (cursor ▸ word) (cursor ▸ next),
    decodeDemux_of_no_filler (congrArg Bool.not noFiller)]

/-- The store at channel `ci` fills one channel more. -/
theorem State.FilledBelow.store {u : State} {ci : Fin 16} (h : s.FilledBelow ws ci t)
    (cell : ∀ slot k, ringCell u slot k = if slot = s.ringI ∧ k = ci then some ws[ci] else ringCell t slot k) :
    s.FilledBelow ws (ci + 1) u := by
  intro slot k
  rw [cell, h]
  by_cases here : slot = s.ringI ∧ k = ci
  · obtain ⟨rfl, rfl⟩ := here
    simp
  · have same : (slot = s.ringI ∧ k.val < ci.val + 1) ↔ (slot = s.ringI ∧ k.val < ci.val) := by
      refine and_congr_right fun hslot => ?_
      have : k.val ≠ ci.val := fun hk => here ⟨hslot, Fin.ext hk⟩
      omega
    simp only [if_neg here, same]

/-- After `j` steps, `j` below 16, the first `j` words are in the channels below `j`, by induction on `j`. -/
theorem State.FacesFrame.reaches_channel (h : s.FacesFrame ws) (first : s.ringCi.val = 0) :
    ∀ j (hj : j < 16), ∃ ring, RunsTo j s (s.atChannel ring ⟨j, hj⟩) ∧
      s.FilledBelow ws j (s.atChannel ring ⟨j, hj⟩) := by
  intro j
  induction j with
  | zero =>
    intro hj
    have start : s.atChannel s.ring 0 = s := by
      have zero : (0 : Fin 16) = s.ringCi := Fin.ext first.symm
      rw [State.atChannel, zero, first, BitVec.add_zero]
    refine ⟨s.ring, congrArg Host.Outcome.next start.symm, fun slot k => ?_⟩
    rw [if_neg (fun hk => Nat.not_lt_zero _ hk.2)]
    rfl
  | succ j ih =>
    intro hj
    obtain ⟨ring, run, filled⟩ := ih (Nat.lt_of_succ_lt hj)
    obtain ⟨t, hexec, ht, hci, cell, -⟩ := Sys2Proof.Proofs.dataStoresMidFrame ws[j] (s.word (s.pos.toNat + j + 1))
      (s.atChannel ring ⟨j, Nat.lt_of_succ_lt hj⟩) (show j ≠ 15 by omega)
    have there : t = s.atChannel t.ring ⟨j + 1, hj⟩ := by
      have channel : t.ringCi = ⟨j + 1, hj⟩ := Fin.ext hci
      rw [channel] at ht
      refine ht.trans ?_
      simp only [State.atChannel, BitVec.add_assoc, BitVec.ofNat_add]
    refine ⟨t.ring, ?_⟩
    rw [← there]
    exact ⟨run.trans (runsTo_one ((h.step_atChannel ring _).trans hexec)),
      State.FilledBelow.store (s := s) filled cell⟩

end

end Sys2Proof.Machine

namespace Sys2Proof.Proofs

open Sys2Proof.Machine

/-- Settles O21: fifteen steps reach channel 15 with the words before in place, and the sixteenth completes the
frame. -/
theorem sixteenWordsMakeAFrame : Obligations.SixteenWordsMakeAFrame := by
  intro s ws loaded alone phase first room words lookahead noFiller
  have h : s.FacesFrame ws := ⟨loaded, alone, phase.symm, room, words, lookahead, noFiller⟩
  obtain ⟨ring, run, filled⟩ := h.reaches_channel first 15 (by decide)
  obtain ⟨t, samples, hexec, ht, hi, hcount, -, cell, hsamples, -⟩ :=
    dataCompletesFrame ws[15] (s.word (s.pos.toNat + 15 + 1)) (s.atChannel ring 15) rfl
  have full : s.FilledBelow ws 16 t := State.FilledBelow.store (s := s) (ci := 15) filled cell
  have cells : ∀ slot k, ringCell t slot k = if slot = s.ringI then some ws[k] else ringCell s slot k := by
    intro slot k
    simp only [full slot k, k.isLt, and_true]
  have frame : samples = ws.map some := by
    apply Vector.ext
    intro k hk
    refine (hsamples ⟨k, hk⟩).trans ((cells s.ringI ⟨k, hk⟩).trans ?_)
    rw [if_pos rfl, Vector.getElem_map]
    rfl
  refine ⟨t, run.trans (runsTo_one ((h.step_atChannel ring 15).trans hexec)), ?_, ?_, ?_, hcount, ?_, cells⟩
  · rw [ht]
    exact BitVec.add_assoc s.pos 15#32 1#32
  · rw [ht]
  · exact Fin.ext (hi.trans (Fin.val_add s.ringI 1).symm)
  · rw [ht, frame]
    rfl

end Sys2Proof.Proofs

/-! ### The pass as a loop over the words left (R76, R77, R78, R79, R83) -/

namespace Sys2Proof.Machine

/-- The data words from index `p` on. -/
def State.wordsFrom (s : State) (p : Nat) : List Word := (List.range (s.len - p)).map fun j => s.word (p + j)

/-- The end of a pass that has still to go through the words from index `p` on, the first `skip` of which are to be
dropped: the loop of R83, then STREAMEND. -/
def State.passEnd (s : State) (p skip : Nat) : State :=
  let r := demuxLoop (s.wordsFrom p) skip s
  { r.1 with
    pos := BitVec.ofNat 32 (max p s.len + r.2)
    truncated := decide (r.1.ringCi.val ≠ 0)
    phase := .done }

section
variable {s t : State} {p : Nat}

theorem State.wordsFrom_below (h : p < s.len) : s.wordsFrom p = s.word p :: s.wordsFrom (p + 1) := by
  have count : s.len - p = s.len - (p + 1) + 1 := by omega
  rw [State.wordsFrom, count, List.range_succ_eq_map, List.map_cons, List.map_map, State.wordsFrom]
  refine congrArg _ (List.map_congr_left fun j _ => ?_)
  exact congrArg s.word (Nat.add_right_comm p 1 j).symm

theorem State.wordsFrom_past (h : s.len ≤ p) : s.wordsFrom p = [] := by
  rw [State.wordsFrom, Nat.sub_eq_zero_of_le h]
  rfl

theorem State.wordsFrom_congr (hstream : t.stream = s.stream) (hn : t.n = s.n) (p : Nat) :
    t.wordsFrom p = s.wordsFrom p := by
  simp only [State.wordsFrom, State.len, State.word, hstream, hn]

/-- The lookahead of the loop is the word the block tests, the sentinel at the end included (R76). -/
theorem State.headD_wordsFrom (sentinel : s.word s.len = Config.sentinel) (h : p ≤ s.len) :
    (s.wordsFrom p).headD Config.sentinel = s.word p := by
  rcases h.eq_or_lt with rfl | below
  · rw [State.wordsFrom_past le_rfl, sentinel]
    rfl
  · rw [State.wordsFrom_below below]
    rfl

/-- A word to be dropped moves the rest of the pass on by one index, at the end of the stream too. -/
theorem State.passEnd_drop (s : State) (p skip : Nat) : s.passEnd p (skip + 1) = s.passEnd (p + 1) skip := by
  by_cases below : p < s.len
  · have bound : max p s.len = max (p + 1) s.len := by omega
    simp only [State.passEnd, State.wordsFrom_below below, demuxLoop, bound]
  · have bound : max p s.len + (skip + 1) = max (p + 1) s.len + skip := by omega
    have past : s.len ≤ p := Nat.not_lt.1 below
    simp only [State.passEnd, State.wordsFrom_past past, State.wordsFrom_past (Nat.le_succ_of_le past), demuxLoop,
      bound]

theorem State.passEnd_past (h : s.len ≤ p) : s.passEnd p 0 =
    { s with pos := BitVec.ofNat 32 p, truncated := decide (s.ringCi.val ≠ 0), phase := .done } := by
  simp only [State.passEnd, State.wordsFrom_past h, demuxLoop, Nat.max_eq_left h, Nat.add_zero]

/-- A filler pair drops four words, the ones past the end of the stream included (R77). -/
theorem State.passEnd_filler (sentinel : s.word s.len = Config.sentinel) (h : p < s.len)
    (pair : isFillerPair (s.word p) (s.word (p + 1)) = true) : s.passEnd p 0 = s.passEnd (p + 4) 0 := by
  have first : s.passEnd p 0 = s.passEnd (p + 1) 3 := by
    have bound : max p s.len = max (p + 1) s.len := by omega
    simp only [State.passEnd, State.wordsFrom_below h, demuxLoop, State.headD_wordsFrom sentinel h, pair, if_true,
      bound, Config.fillerAdvance, Nat.reduceSub]
  rw [first, State.passEnd_drop, State.passEnd_drop, State.passEnd_drop]

theorem nextChannel_with_pos (s : State) (x : Word) :
    nextChannel { s with pos := x } = { nextChannel s with pos := x } := by
  unfold nextChannel
  rw [completeFrame_eq, completeFrame_eq]
  split <;> rfl

/-- The loop does not look at the cursor. -/
theorem demuxLoop_with_pos (ws : List Word) (skip : Nat) (s : State) (x : Word) :
    demuxLoop ws skip { s with pos := x } =
      ({ (demuxLoop ws skip s).1 with pos := x }, (demuxLoop ws skip s).2) := by
  fun_induction demuxLoop ws skip s with
  | case1 => rfl
  | case2 _ _ _ _ ih => exact ih
  | case3 s w rest pair ih => rw [demuxLoop, if_pos pair, ih]
  | case4 s w rest other ih => rw [demuxLoop, if_neg other, ← ih, ← nextChannel_with_pos]; rfl

theorem State.passEnd_with_pos (s : State) (x : Word) (p skip : Nat) :
    ({ s with pos := x } : State).passEnd p skip = s.passEnd p skip := by
  have same : ({ s with pos := x } : State).wordsFrom p = s.wordsFrom p := State.wordsFrom_congr rfl rfl p
  simp only [State.passEnd, same, demuxLoop_with_pos]
  rfl

/-- A word that begins no filler pair is stored, and the pass goes on with the next (R78). -/
theorem State.passEnd_data {next : Word} (sentinel : s.word s.len = Config.sentinel) (h : p < s.len)
    (other : isFillerPair (s.word p) (s.word (p + 1)) = false) (hexec : exec (.data (s.word p) next) s = .next t) :
    s.passEnd p 0 = t.passEnd (p + 1) 0 := by
  obtain ⟨hstream, hn⟩ := (effect_of_data hexec).data_stream
  obtain rfl : advance 1 (nextChannel (storeSample (s.word p) s)) = t := by
    injection hexec
  refine Eq.trans ?_ (State.passEnd_with_pos _ _ _ _).symm
  have bound : max p s.len = max (p + 1) s.len := by omega
  have len : (nextChannel (storeSample (s.word p) s)).len = s.len := congrArg BitVec.toNat hn
  simp only [State.passEnd, State.wordsFrom_congr (t := nextChannel (storeSample (s.word p) s)) hstream hn,
    State.wordsFrom_below h, demuxLoop, State.headD_wordsFrom sentinel h, other, len, bound, if_false,
    Bool.false_eq_true]

end

/-- The block is in a round-robin pass over a fixed stream, with no host turn to come. -/
structure State.Passes (s : State) : Prop where
  loaded : s.streamValid = true
  fixed : s.StreamFixed
  sentinel : s.word s.len = Config.sentinel
  alone : s.inbox = []
  phase : s.phase = .warmup ∨ s.phase = .main

namespace State.Passes

variable {s t : State}

theorem with_pos (h : s.Passes) (pos : Word) : ({ s with pos := pos } : State).Passes :=
  ⟨h.loaded, h.fixed, h.sentinel, h.alone, h.phase⟩

theorem after_data (h : s.Passes) {w next : Word} (hexec : exec (.data w next) s = .next t) : t.Passes := by
  cases effect_of_data hexec with
  | dataMid => exact ⟨h.loaded, h.fixed, h.sentinel, h.alone, h.phase⟩
  | dataLast =>
    refine ⟨h.loaded, h.fixed, h.sentinel, h.alone, ?_⟩
    simp only
    split
    · exact .inr rfl
    · exact h.phase
  | refused _ no => exact absurd trivial no

theorem step_below (h : s.Passes) (below : s.pos.toNat < s.len) :
    step s = exec (decodeDemux (s.word s.pos.toNat) (s.word (s.pos.toNat + 1))) s :=
  step_demux_alone h.alone h.loaded h.phase below ⟨h.fixed _ below.le, rfl⟩ ⟨h.fixed _ below, rfl⟩

/-- At or past the end one step ends the pass (R79). -/
theorem ends (h : s.Passes) (past : s.len ≤ s.pos.toNat) : step s = .next (s.passEnd s.pos.toNat 0) := by
  rw [step_streamEnd (.inl ⟨h.alone, rfl⟩) h.phase past, State.without_turns h.alone, State.passEnd_past past,
    BitVec.ofNat_toNat, BitVec.setWidth_eq]
  exact execStreamEnd_eq s

/-- Below the end one step moves the cursor on by one word or more and leaves the end of the pass what it was. -/
theorem advances (h : s.Passes) (below : s.pos.toNat < s.len) :
    ∃ t, step s = .next t ∧ t.Passes ∧ t.len = s.len ∧ s.pos.toNat < t.pos.toNat ∧
      s.passEnd s.pos.toNat 0 = t.passEnd t.pos.toNat 0 := by
  have cursor : ∀ k, k ≤ 4 → (s.pos + BitVec.ofNat 32 k).toNat = s.pos.toNat + k :=
    fun k hk => toNat_add_of_lt_len below hk
  cases pair : isFillerPair (s.word s.pos.toNat) (s.word (s.pos.toNat + 1)) with
  | true =>
    have moved : (advance 4 s).pos.toNat = s.pos.toNat + 4 := cursor 4 le_rfl
    refine ⟨advance 4 s, ?_, h.with_pos _, rfl, by omega, ?_⟩
    · rw [h.step_below below, decodeDemux, if_pos pair]
      rfl
    · rw [moved, State.passEnd_filler h.sentinel below pair]
      exact (State.passEnd_with_pos _ _ _ _).symm
  | false =>
    obtain ⟨t, hexec⟩ := exec_next (.data (s.word s.pos.toNat) (s.word (s.pos.toNat + 1))) s
    obtain ⟨-, hn⟩ := (effect_of_data hexec).data_stream
    have moved : t.pos.toNat = s.pos.toNat + 1 := by
      cases effect_of_data hexec with
      | dataMid | dataLast => exact cursor 1 (by decide)
      | refused _ no => exact absurd trivial no
    refine ⟨t, ?_, h.after_data hexec, congrArg BitVec.toNat hn, by omega, ?_⟩
    · rw [h.step_below below, decodeDemux, if_neg (by simp [pair]), hexec]
    · rw [moved, State.passEnd_data h.sentinel below pair hexec]

/-- The pass runs to its end in at most one step a word, and one more for STREAMEND, by induction on the words left. -/
theorem runs_to_end (h : s.Passes) : ∃ k, k ≤ s.len - s.pos.toNat + 1 ∧ RunsTo k s (s.passEnd s.pos.toNat 0) := by
  induction left : s.len - s.pos.toNat using Nat.strong_induction_on generalizing s with
  | _ left' ih =>
    rcases Nat.lt_or_ge s.pos.toNat s.len with below | past
    · obtain ⟨t, first, passes, len, moved, same⟩ := h.advances below
      obtain ⟨k, hk, rest⟩ := ih (t.len - t.pos.toNat) (by omega) passes rfl
      exact ⟨k + 1, by omega, same ▸ .of_step first rest⟩
    · exact ⟨1, by omega, runsTo_one (h.ends past)⟩

end State.Passes

end Sys2Proof.Machine

namespace Sys2Proof.Proofs

open Sys2Proof.Machine

/-- Settles O22: each step leaves the end of the pass what it was, and the last one reaches it. -/
theorem passIsTheLoopOverTheWords : Obligations.PassIsTheLoopOverTheWords := by
  intro s loaded fixed sentinel alone phase
  have passes : s.Passes := ⟨loaded, fixed, sentinel, alone, phase⟩
  exact passes.runs_to_end

end Sys2Proof.Proofs

/-! ### Every pass ends (R84) -/

namespace Sys2Proof.Machine

/-- How many steps a phase adds to one step a word: SCAN ends and then leads to WARMUP or MAIN, which end too. -/
def Phase.endSteps : Phase → Nat
  | .scan => 2
  | .warmup | .main | .legacy => 1
  | .idle | .done | .fault => 0

/-- A bound on the steps to the end of the pass. -/
def State.stepsLeft (s : State) : Nat := (s.len - s.pos.toNat) + s.phase.endSteps

section
variable {s t : State} {i : Instr}

theorem Phase.endSteps_le_two (p : Phase) : p.endSteps ≤ 2 := by
  cases p <;> decide

theorem endSteps_after_scan (a : AfterScan) (full : Prop) [Decidable full] :
    (match a with
      | .done => Phase.done
      | .warmup => if full then .main else .warmup).endSteps < Phase.scan.endSteps := by
  cases a with
  | done => exact Nat.zero_lt_two
  | warmup =>
    simp only
    split <;> decide

theorem endSteps_end_warmup (p : Phase) (full : Prop) [Decidable full] :
    (if p = .warmup ∧ full then .main else p).endSteps = p.endSteps := by
  split
  · rename_i warmup
    rw [warmup.1]
    rfl
  · rfl

theorem endSteps_pos_of_pass {p : Phase} (h : p = .warmup ∨ p = .main) : 0 < p.endSteps := by
  rcases h with rfl | rfl <;> decide

/-- Every stream instruction brings the end nearer: it takes a word, or it ends the phase. -/
theorem Effect.stepsLeft_lt (h : Effect s i t) (hc : s.canDecode i) : t.stepsLeft < s.stepsLeft := by
  have taken : ∀ k, 0 < k → k ≤ 4 → s.pos.toNat < s.len →
      s.len - (s.pos + BitVec.ofNat 32 k).toNat < s.len - s.pos.toNat := by
    intro k hpos hk below
    rw [toNat_add_of_lt_len below hk]
    omega
  cases h with
  | scanEnd =>
    rw [State.stepsLeft, State.stepsLeft, hc.1]
    exact Nat.add_lt_add_left (endSteps_after_scan s.afterScan _) _
  | sync3 =>
    rw [State.stepsLeft, State.stepsLeft, hc.1]
    exact Nat.add_lt_add (taken 3 (by decide) (by decide) (hc.2.trans_le (Nat.sub_le _ _)))
      (endSteps_after_scan s.afterScan _)
  | scanSkip => exact Nat.add_lt_add_right (taken 1 (by decide) (by decide) (hc.2.trans_le (Nat.sub_le _ _))) _
  | streamEnd => exact Nat.add_lt_add_left (endSteps_pos_of_pass hc.1) _
  | fillPair => exact Nat.add_lt_add_right (taken 4 (by decide) le_rfl hc.2) _
  | dataMid => exact Nat.add_lt_add_right (taken 1 (by decide) (by decide) hc.2) _
  | dataLast =>
    exact Nat.add_lt_add_of_lt_of_le (taken 1 (by decide) (by decide) hc.2) (endSteps_end_warmup s.phase _).le
  | lEnd | lRecFull | lRecFills =>
    rw [State.stepsLeft, State.stepsLeft, hc.1]
    exact Nat.lt_succ_self _
  | lRec => exact Nat.add_lt_add_right (taken 1 (by decide) (by decide) hc.2) _
  | refused i no =>
    cases i with
    | load | findSync | run | ringInit | cmdReserved => exact hc.elim
    | _ => exact absurd trivial no
  | _ => exact hc.elim

theorem Effect.pass_kept (h : Effect s i t) (hc : s.canDecode i) :
    t.inbox = s.inbox ∧ t.streamValid = s.streamValid := by
  cases h with
  | loadFails | load | findSync | runRoundRobin | runLegacy | ringInit | reset => exact hc.elim
  | _ => exact ⟨rfl, rfl⟩

/-- A busy block with a stream, left alone, takes a step nearer to the end, whatever the free bytes hold. -/
theorem step_of_busy_alone (busy : s.isBusy = true) (loaded : s.streamValid = true) (alone : s.inbox = []) :
    ∃ t, step s = .next t ∧ t.inbox = [] ∧ t.streamValid = true ∧ t.stepsLeft < s.stepsLeft := by
  obtain ⟨e, i, d, fetched, decoded⟩ := fetchStream_busy busy loaded
  obtain ⟨-, hc⟩ := fetchStream_cases fetched decoded
  obtain ⟨t, hexec, he⟩ := exec_effect i { s with draws := d } (State.ne_cmdWrite_of_canDecode hc)
  obtain ⟨hinbox, hvalid⟩ := he.pass_kept hc
  refine ⟨t, ?_, hinbox.trans alone, hvalid.trans loaded, he.stepsLeft_lt hc⟩
  have turn := fetchNext_of_blockTurn (s := s) (.inl ⟨alone, rfl⟩)
  rw [State.without_turns alone] at turn
  rw [step_of_fetch (turn.trans fetched) decoded, hexec]

theorem runs_to_rest (loaded : s.streamValid = true) (alone : s.inbox = []) :
    ∃ k t, k ≤ s.stepsLeft ∧ RunsTo k s t ∧ t.isBusy = false := by
  induction left : s.stepsLeft using Nat.strong_induction_on generalizing s with
  | _ left' ih =>
    cases busy : s.isBusy with
    | false => exact ⟨0, s, Nat.zero_le _, rfl, busy⟩
    | true =>
      obtain ⟨u, first, alone', loaded', nearer⟩ := step_of_busy_alone busy loaded alone
      obtain ⟨k, t, hk, rest, ended⟩ := ih u.stepsLeft (left ▸ nearer) loaded' alone' rfl
      exact ⟨k + 1, t, by omega, .of_step first rest, ended⟩

end

end Sys2Proof.Machine

namespace Sys2Proof.Proofs

open Sys2Proof.Machine

/-- Settles O55: the steps left are at most one a word and two more. -/
theorem everyPassEnds : Obligations.EveryPassEnds := by
  intro s loaded _ alone
  obtain ⟨k, t, hk, run, ended⟩ := runs_to_rest loaded alone
  exact ⟨k, t, hk.trans (Nat.add_le_add_left s.phase.endSteps_le_two _), run, ended⟩

end Sys2Proof.Proofs

/-! PROOFS of the family `43_ring_buffer.md`: the fresh ring of RING_INIT, and the window through which the host reads a
slot (R86, R89, R91, with R107 and R138). -/

/-! ### RING_INIT (R86) -/

namespace Sys2Proof.Proofs

open Sys2Proof.Machine

/-- Settles O34: the effect is the fresh ring in the phases that accept the command, and the refusal in the others. -/
theorem ringInitMakesAFreshRing : Obligations.RingInitMakesAFreshRing := by
  intro x s
  obtain ⟨t, hexec, he⟩ := exec_effect (.ringInit x) s nofun
  refine ⟨rfl, fun ok => ⟨t, hexec, ?_⟩, fun ⟨not_idle, not_done⟩ => hexec.trans (next_congr ?_)⟩
  · cases he with
    | ringInit => exact ⟨rfl, emptyRing_get⟩
    | refused _ no => exact absurd ok no
  · cases he with
    | ringInit _ ok => exact (ok.elim not_idle not_done).elim
    | refused => rfl

end Sys2Proof.Proofs

/-! ### The read window, and the reads whose value is free (R89, R91, R107, R138) -/

namespace Sys2Proof.Machine

theorem hostReg_ringData (k : Fin 16) : hostReg (0x10 + k) = some (.ringData k) := by
  revert k
  decide

/-- The window shows a written cell once the block is at rest. -/
theorem readNumber_ringData (s : State) (k : Fin 16) :
    readNumber s (0x10 + k) = (ringCell s (slotOf s.ringSeq.toNat) k).bind (settled s) := by
  rw [readNumber, hostReg_ringData]
  rfl

theorem settled_of_busy {s : State} (h : s.isBusy = true) (v : Word) : settled s v = none := by
  rw [settled, if_pos h]

/-- While the block is busy the window shows nothing fixed, written cell or not. -/
theorem readNumber_ringData_of_busy {s : State} (h : s.isBusy = true) (k : Fin 16) :
    readNumber s (0x10 + k) = none := by
  rw [readNumber_ringData]
  cases ringCell s (slotOf s.ringSeq.toNat) k with
  | none => rfl
  | some w => exact settled_of_busy h w

theorem exec_rdreg_of_free {s : State} {n : Nat} (h : readNumber s n = none) :
    exec (.rdreg n) s = .next { s with rdData := Config.any32 s.draws, draws := s.draws + 1 } := by
  rw [exec, execRdreg, h]
  rfl

end Sys2Proof.Machine

namespace Sys2Proof.Proofs

open Sys2Proof.Machine

/-- Settles O40: the window's slot is that of the sequence number just written, and its cell is settled. -/
theorem ringWindowShowsTheSlot : Obligations.RingWindowShowsTheSlot := by
  intro q k s
  refine ⟨rfl, fun slot w not_busy hslot written => exec_rdreg_of_value ?_⟩
  obtain rfl : slot = slotOf q.toNat := Fin.ext hslot
  calc readNumber { s with ringSeq := q } (0x10 + k)
      = (ringCell s (slotOf q.toNat) k).bind (settled { s with ringSeq := q }) := readNumber_ringData _ k
    _ = settled { s with ringSeq := q } w := by rw [written, Option.bind_some]
    _ = some w := settled_of_not_busy not_busy w

/-- Settles O41: a result register is not settled while the block is busy, a ring cell neither then nor unwritten. -/
theorem rdregDrawsWhatIsNotFixed : Obligations.RdregDrawsWhatIsNotFixed := by
  intro s
  refine ⟨fun busy => ⟨exec_rdreg_of_value rfl, exec_rdreg_of_value rfl, exec_rdreg_of_value rfl,
    exec_rdreg_of_value rfl, exec_rdreg_of_value rfl, ?_, ?_⟩, fun k unwritten => exec_rdreg_of_free ?_⟩
  · rintro n (rfl | unknown)
    · exact exec_rdreg_of_value rfl
    · exact exec_rdreg_unknown s unknown
  · rintro n (rfl | rfl | rfl | rfl | rfl | ⟨low, high⟩)
    case inr.inr.inr.inr.inr =>
      obtain ⟨k, rfl⟩ := Nat.exists_eq_add_of_le low
      exact exec_rdreg_of_free (readNumber_ringData_of_busy busy ⟨k, Nat.lt_of_add_lt_add_left high⟩)
    all_goals exact exec_rdreg_of_free (settled_of_busy busy _)
  · rw [readNumber_ringData, unwritten, Option.bind_none]

end Sys2Proof.Proofs

/-! PROOFS of the family `44_legacy_tag_mode.md`: what LREC and LEND do, the separation of the modes, the events of a
channel, and the command that starts a legacy pass (R93 to R101). -/

/-! ### Appends to the channel buffers (R98, R100) -/

namespace Sys2Proof.Machine

theorem appendSample_twice_get (ch c : Fin 16) (v0 v1 : Half) (s : State) :
    (appendSample ch v1 (appendSample ch v0 s)).chbuf[c] =
      if c = ch then s.chbuf[c] ++ [v0, v1] else s.chbuf[c] := by
  rw [appendSample_get, appendSample_get]
  by_cases h : c = ch
  · rw [if_pos h, if_pos h, if_pos h, List.append_assoc, List.singleton_append]
  · rw [if_neg h, if_neg h, if_neg h]

/-- The events of each channel are its buffer, in order (R100). -/
def State.EventsAreBuffers (s : State) : Prop := ∀ ch : Fin 16, samplesOf ch s.trace = s.chbuf[ch]

/-- An append writes buffer and trace alike (R98). -/
theorem State.EventsAreBuffers.append {s : State} (h : s.EventsAreBuffers) (ch : Fin 16) (v : Half) :
    (appendSample ch v s).EventsAreBuffers := by
  intro c
  rw [appendSample_trace, samplesOf_append, appendSample_get, h c]
  by_cases hc : ch = c
  · simp [samplesOf, hc]
  · simp [samplesOf, hc, Ne.symm hc]

/-- Raising `ChannelOverflow` adds no value (R99). -/
theorem State.EventsAreBuffers.overflow {s : State} (h : s.EventsAreBuffers) :
    (raise .channelOverflow s).EventsAreBuffers := by
  intro ch
  rw [raise_channelOverflow, samplesOf_append]
  exact (List.append_nil _).trans (h ch)

end Sys2Proof.Machine

/-! ### LREC and LEND (R95 to R100) -/

namespace Sys2Proof.Machine

/-- With room for two values LREC appends `V0` and then `LEGACY_V1`, and moves on by one record. -/
theorem exec_lRec_of_room (hi tag : BitVec 4) (b2 : Byte) (v0 : Half) {s : State}
    (room : chLen s tag.toFin + 2 ≤ s.legacyCap) :
    exec (.lRec hi tag b2 v0) s =
      .next (advance 1 (appendSample tag.toFin (secondValue s) (appendSample tag.toFin v0 s.draw))) := by
  have room0 : ¬ channelFull s.draw tag.toFin = true := by
    rw [channelFull_iff]
    exact Nat.ne_of_lt (Nat.lt_of_succ_lt room)
  have room1 : ¬ channelFull (appendSample tag.toFin v0 s.draw) tag.toFin = true := by
    rw [channelFull_iff, chLen_appendSample, if_pos rfl]
    exact Nat.ne_of_lt room
  exact (if_neg room0).trans (if_neg room1)

end Sys2Proof.Machine

namespace Sys2Proof.Proofs

open Sys2Proof.Machine

/-- Settles O23: the two appends one after the other. -/
theorem lrecAppendsBothValues : Obligations.LrecAppendsBothValues := by
  intro hi tag b2 v0 s room
  refine ⟨_, secondValue s, exec_lRec_of_room hi tag b2 v0 room, rfl, ?_,
    fun ch => appendSample_twice_get tag.toFin ch v0 (secondValue s) s.draw, fun _ => rfl⟩
  have events : s.trace ++ [.sample16 tag.toFin v0] ++ [.sample16 tag.toFin (secondValue s)] =
      s.trace ++ [.sample16 tag.toFin v0, .sample16 tag.toFin (secondValue s)] := List.append_assoc _ _ _
  rw [← events]
  rfl

/-- Settles O24: the effect of LREC is `lRecFull` on a full channel and `lRecFills` where one value has room. -/
theorem lrecOverflows : Obligations.LrecOverflows := by
  intro hi tag b2 v0 s
  obtain ⟨t, hexec, he⟩ := exec_effect (.lRec hi tag b2 v0) s nofun
  refine ⟨fun full => ⟨t, hexec, ?_⟩, fun full => ⟨t, hexec, ?_⟩⟩
  · cases he with
    | lRec _ _ _ _ _ room0 | lRecFills _ _ _ _ room0 => exact absurd full room0
    | lRecFull => rfl
    | refused _ no => exact absurd trivial no
  · cases he with
    | lRec _ _ _ _ _ _ room1 => exact absurd full room1
    | lRecFull _ _ _ _ full0 => omega
    | lRecFills =>
      rw [List.append_assoc]
      exact ⟨rfl, fun ch => appendSample_get tag.toFin ch v0 s.draw⟩
    | refused _ no => exact absurd trivial no

/-- Settles O25: LEND is this one change of phase. -/
theorem lendResult : Obligations.LendResult := fun _ => rfl

/-- Settles O27: an append keeps the events and the buffers in step, and so does the overflow. -/
theorem legacyEventsAreTheBuffers : Obligations.LegacyEventsAreTheBuffers := by
  intro hi tag b2 v0 s t inStep hexec
  have before : s.draw.EventsAreBuffers := inStep
  have he : Effect s (.lRec hi tag b2 v0) t := effect_of_exec nofun hexec
  cases he with
  | lRec _ _ _ _ v1 => exact (before.append tag.toFin v0).append tag.toFin v1
  | lRecFull => exact before.overflow
  | lRecFills => exact (before.append tag.toFin v0).overflow
  | refused _ no => exact absurd trivial no

end Sys2Proof.Proofs

/-! ### The modes are separate (R101) -/

namespace Sys2Proof.Machine

section
variable {i : Instr} {s t : State}

/-- Of the instructions that clear nothing (RING_INIT and RESET do), DATA alone writes the ring and completes a frame
(R38, R78, R80). -/
theorem Effect.ring_and_frames_unchanged (h : Effect s i t) (hdata : ∀ w next, i ≠ .data w next)
    (hinit : ∀ x, i ≠ .ringInit x) (hreset : ∀ x, i ≠ .reset x) :
    t.ring = s.ring ∧ t.ringI = s.ringI ∧ t.ringCi = s.ringCi ∧ t.ringCount = s.ringCount ∧
      framesOf t.trace = framesOf s.trace := by
  obtain ⟨ring, slot, channel, count⟩ := h.ring_unchanged hdata hinit hreset
  refine ⟨ring, slot, channel, count, ?_⟩
  cases h with
  | dataMid w next | dataLast w next => exact absurd rfl (hdata w next)
  | ringInit x => exact absurd rfl (hinit x)
  | reset x => exact absurd rfl (hreset x)
  | lRec | lRecFull | lRecFills | loadFails => simp [framesOf]
  | _ => rfl

/-- Only LREC appends a 16-bit value (R98); a legacy RUN empties the buffers (R93), RING_INIT the trace (R86), RESET
both (R40). -/
theorem Effect.channels_unchanged (h : Effect s i t) (hrec : ∀ hi tag b2 v0, i ≠ .lRec hi tag b2 v0)
    (hrun : ∀ sync, i ≠ .run .legacy sync) (hinit : ∀ x, i ≠ .ringInit x) (hreset : ∀ x, i ≠ .reset x) :
    t.chbuf = s.chbuf ∧ ∀ ch, samplesOf ch t.trace = samplesOf ch s.trace := by
  cases h with
  | lRec hi tag b2 v0 | lRecFull hi tag b2 v0 | lRecFills hi tag b2 v0 => exact absurd rfl (hrec hi tag b2 v0)
  | runLegacy sync => exact absurd rfl (hrun sync)
  | ringInit x => exact absurd rfl (hinit x)
  | reset x => exact absurd rfl (hreset x)
  | dataLast | loadFails => exact ⟨rfl, fun ch => by simp [samplesOf]⟩
  | _ => exact ⟨rfl, fun _ => rfl⟩

end

end Sys2Proof.Machine

namespace Sys2Proof.Proofs

open Sys2Proof.Machine

/-- Settles O26: no legacy instruction is a writer of the ring or of the frames, no round-robin one of the channels. -/
theorem modesAreSeparate : Obligations.ModesAreSeparate := by
  intro s t
  constructor
  · rintro (⟨hi, tag, b2, v0, hexec⟩ | hexec)
    · have he : Effect s (.lRec hi tag b2 v0) t := effect_of_exec nofun hexec
      exact he.ring_and_frames_unchanged nofun nofun nofun
    · have he : Effect s .lEnd t := effect_of_exec nofun hexec
      exact he.ring_and_frames_unchanged nofun nofun nofun
  · rintro (⟨w, next, hexec⟩ | hexec | hexec)
    · exact (effect_of_data hexec).channels_unchanged nofun nofun nofun nofun
    · have he : Effect s .fillPair t := effect_of_exec nofun hexec
      exact he.channels_unchanged nofun nofun nofun nofun
    · have he : Effect s .streamEnd t := effect_of_exec nofun hexec
      exact he.channels_unchanged nofun nofun nofun nofun

end Sys2Proof.Proofs

/-! ### RUN in legacy mode (R93) -/

namespace Sys2Proof.Proofs

open Sys2Proof.Machine

/-- Settles O33: in phase IDLE or DONE with a stream the effect of RUN is not the refusal. -/
theorem runStartsALegacyPass : Obligations.RunStartsALegacyPass := by
  intro sync s ok loaded
  obtain ⟨t, hexec, he⟩ := exec_effect (.run .legacy sync) s nofun
  refine ⟨t, hexec, ?_⟩
  cases he with
  | runLegacy => exact ⟨rfl, emptyChannels_get⟩
  | refused _ no => exact absurd ⟨ok, loaded⟩ no

end Sys2Proof.Proofs

/-! PROOFS of the family `45_host_commands.md`: which commands are accepted, what a refused one does, and the writes to
the register file (R102 to R104, R106, R108). -/

/-! ### Accepted and refused commands (R102, R103, R106) -/

namespace Sys2Proof

/-- The commands and the reserved values: what a value written to `CMD` can be (R58). -/
def Instr.isCommand : Instr → Bool
  | .nop _ | .load _ | .findSync _ | .run _ _ | .ringInit _ | .reset _ | .cmdReserved _ => true
  | _ => false

end Sys2Proof

namespace Sys2Proof.Machine

theorem decodeCommand_isCommand (v : Word) : (decodeCommand v).isCommand = true := by
  unfold decodeCommand
  split <;> rfl

theorem Effect.cmdRefused_of_accepts {s t : State} {i : Instr} (h : Effect s i t) (hi : i.isCommand = true)
    (ok : s.Accepts i) : t.cmdRefused = false := by
  cases h with
  | refused _ no => exact absurd ok no
  | nop | loadFails | load | findSync | runRoundRobin | runLegacy | ringInit | reset => rfl
  | _ => cases hi

/-- What is not accepted has no effect but the refusal (R103). -/
theorem Effect.eq_refused_of_not_accepts {s t : State} {i : Instr} (h : Effect s i t) (no : ¬ s.Accepts i) :
    t = { s with cmdRefused := true } := by
  cases h with
  | refused => rfl
  | loadFails _ _ _ ok | load _ _ _ ok | ringInit _ ok => exact absurd ok no
  | findSync _ ok loaded | runRoundRobin _ ok loaded | runLegacy _ ok loaded => exact absurd ⟨ok, loaded⟩ no
  | _ => exact absurd trivial no

theorem exec_of_not_accepts {s : State} {i : Instr} (no : ¬ s.Accepts i) :
    exec i s = .next { s with cmdRefused := true } := by
  have not_write : ∀ v, i ≠ .wrreg 0 v := by
    rintro v rfl
    exact no trivial
  obtain ⟨t, hexec, he⟩ := exec_effect i s not_write
  exact hexec.trans (next_congr (he.eq_refused_of_not_accepts no))

end Sys2Proof.Machine

namespace Sys2Proof.Proofs

open Sys2Proof.Machine

/-- Settles O38: the table is `State.Accepts`, which decides between the command's effect and the refusal. -/
theorem acceptanceTable : Obligations.AcceptanceTable := by
  intro v s
  obtain ⟨t, hexec, he⟩ := exec_effect (decodeCommand v) s (decodeCommand_ne_wrreg v 0)
  refine ⟨t, hexec, ?_⟩
  have hcommand := decodeCommand_isCommand v
  clear hexec
  generalize decodeCommand v = i at he hcommand ⊢
  cases i with
  | nop | load | findSync | run | ringInit | reset | cmdReserved =>
    exact ⟨he.cmdRefused_of_accepts rfl, he.eq_refused_of_not_accepts⟩
  | _ => cases hcommand

/-- Settles O37: a reserved value decodes to CMD_RESERVED, which no state accepts; `exec` drops the bits 5:4 that the
other five commands carry. -/
theorem reservedCommandIsRefused : Obligations.ReservedCommandIsRefused := by
  refine ⟨fun v reserved => ?_, fun v s => exec_of_not_accepts id, fun x y s => ⟨rfl, rfl, rfl, rfl, rfl⟩⟩
  obtain ⟨-, -, -, -, -, -, decodes⟩ := decodeCommand_iff v
  exact decodes.2 ((commandOp_eq_reserved_iff v).2 reserved)

/-- Settles O28: the word is `commandWord` of `OP` 0, and NOP is `accept` without an effect of its own. -/
theorem nopResult : Obligations.NopResult := by
  refine ⟨fun x => rfl, fun x s => ?_⟩
  calc exec (.nop x) s = .next (accept id s) := rfl
    _ = .next { s with cmdRefused := false } := rfl

end Sys2Proof.Proofs

/-! ### Register writes (R32, R108) -/

namespace Sys2Proof.Machine

/-- The number of a register in the table (R32). -/
def HostReg.number : HostReg → Nat
  | .cmd => 0x00
  | .start => 0x01
  | .byteLen => 0x02
  | .nwords => 0x03
  | .status => 0x04
  | .pos => 0x05
  | .syncIndex => 0x06
  | .ringI => 0x07
  | .ringCi => 0x08
  | .frameCount => 0x09
  | .ringSeq => 0x0A
  | .ringData k => 0x10 + k

/-- A register has one number. -/
theorem eq_number_of_hostReg {n : Nat} {r : HostReg} (h : hostReg n = some r) : n = r.number := by
  unfold hostReg at h
  split at h
  case h_12 =>
    split at h
    case isTrue range =>
      cases h
      exact (Nat.add_sub_cancel' range.1).symm
    case isFalse => cases h
  all_goals
    cases h
    rfl

theorem exec_wrreg_ignored {n : Nat} (hcmd : n ≠ 0x00) (hstart : n ≠ 0x01) (hbyteLen : n ≠ 0x02) (hringSeq : n ≠ 0x0A)
    (v : Word) (s : State) : exec (.wrreg n v) s = .next s := by
  rw [exec, execWrreg]
  cases h : hostReg n with
  | none => rfl
  | some r =>
    have hn := eq_number_of_hostReg h
    cases r with
    | cmd => exact absurd hn hcmd
    | start => exact absurd hn hstart
    | byteLen => exact absurd hn hbyteLen
    | ringSeq => exact absurd hn hringSeq
    | _ => rfl

theorem exec_decodeCommand (v : Word) (s : State) : exec (decodeCommand v) s = performCommand v s := by
  unfold decodeCommand performCommand
  cases commandOp v <;> rfl

end Sys2Proof.Machine

namespace Sys2Proof.Proofs

open Sys2Proof.Machine

/-- Settles O42: number 0 is `CMD`, three numbers store, and no other number is that of a register the host can write. -/
theorem wrregStoresOrIsIgnored : Obligations.WrregStoresOrIsIgnored := fun v s =>
  ⟨rfl, rfl, rfl, fun _ hcmd hstart hbyteLen hringSeq => exec_wrreg_ignored hcmd hstart hbyteLen hringSeq v s,
    (exec_decodeCommand v s).symm⟩

end Sys2Proof.Proofs

/-! PROOFS of the family `other`: what RESET leaves (R40, R105, log entry 7). -/

namespace Sys2Proof.Machine

/-- RESET is `resetBlock` in every state: it does not keep `cmd_refused`, which `accept` clears first. -/
theorem exec_reset (x : BitVec 2) (s : State) : exec (.reset x) s = .next (resetBlock s) :=
  calc exec (.reset x) s = .next (accept resetBlock s) := rfl
    _ = .next (resetBlock { s with cmdRefused := false }) := rfl
    _ = .next (resetBlock s) := rfl

end Sys2Proof.Machine

namespace Sys2Proof.Proofs

open Sys2Proof.Machine

/-- Settles O36: the fields `resetBlock` takes over from the state are the five named. -/
theorem resetKeepsTheHostsSide : Obligations.ResetKeepsTheHostsSide := exec_reset

end Sys2Proof.Proofs
